-- ==== Sys2Proof/Word.lean ====
section
/-! DEFINITION. The data the environment and the blocks exchange: port vectors, named values, and the
bytes of a statement's text. Nothing here computes. -/

namespace Sys2Proof

/-- One character of a statement's text, as ASCII (log 12). -/
abbrev Byte := BitVec 8

/-- The text of one statement of the notation of R59. -/
abbrev Text := List Byte

/-- The name of a vector value in the notation of R59, such as `c0`. -/
abbrev Ident := Text

/-- A vector of some width, as a port or a named value carries it (R9). Bit 0 is position 1 (R31). -/
structure Vec where
  width : Nat
  bits : BitVec width
deriving DecidableEq, Repr

/-- What a name of the notation stands for (R59): a vector read from a port, or a hexadecimal literal,
which is a natural number until a port gives it a width (R9, `zext_W` of R11). -/
inductive Value where
  | literal (n : Nat)
  | vec (v : Vec)
deriving DecidableEq, Repr

end Sys2Proof
end

