-- ==== Sys2Proof/Config.lean ====
section
/-! DEFINITION. What an implementation fixes: M_MAX, the OPEN parameter of R8 and decision D2. The data width M is a
parameter of every block function and of every application (R27), and stands in no configuration record. -/

namespace Sys2Proof

/-- M_MAX, the largest M the elaborating tool accepts, left OPEN by the spec. `none`: no limit. Every claim holds for
every value of it (log 2). -/
abbrev WidthLimit := Option Nat

end Sys2Proof
end

