-- ==== Sys2Proof/Machine/Characters.lean ====
section
/-! DEFINITION. The characters and the numerals of the notation of R59 (log 11). -/

namespace Sys2Proof.Machine

/-- The ASCII bytes of a list of characters. -/
def ascii (cs : List Char) : Text := cs.map fun c => BitVec.ofNat 8 c.toNat

def isDigit (b : Byte) : Bool := 48 ≤ b.toNat && b.toNat ≤ 57

def isLetter (b : Byte) : Bool := (65 ≤ b.toNat && b.toNat ≤ 90) || (97 ≤ b.toNat && b.toNat ≤ 122)

/-- A letter, a digit or an underscore. -/
def isIdentByte (b : Byte) : Bool := isLetter b || isDigit b || b.toNat == 95

/-- What a word of the notation is made of: a name's characters, and the `'` and `"` of a literal. -/
def isWordByte (b : Byte) : Bool := isIdentByte b || b.toNat == 39 || b.toNat == 34

/-- Space, tab, line feed, carriage return, and the NUL that pads a text shorter than its word (log 12). -/
def isBlankByte (b : Byte) : Bool :=
  b.toNat == 32 || b.toNat == 9 || b.toNat == 10 || b.toNat == 13 || b.toNat == 0

/-- A name: a letter, then letters, digits and underscores. -/
def isIdent : Ident → Bool
  | [] => false
  | b :: bs => isLetter b && bs.all isIdentByte

/-- The value of a digit of base `base` (at most 16), letters in either case. -/
def digitValue (base : Nat) (b : Byte) : Option Nat :=
  let v :=
    if isDigit b then b.toNat - 48
    else if 65 ≤ b.toNat && b.toNat ≤ 70 then b.toNat - 55
    else if 97 ≤ b.toNat && b.toNat ≤ 102 then b.toNat - 87
    else 16
  if v < base then some v else none

/-- The character of the digit `d` (below 16). -/
def digitByte (d : Nat) : Byte := BitVec.ofNat 8 (if d < 10 then 48 + d else 55 + d)

/-- Reads the digits of a numeral, most significant first, on top of `acc`. -/
def readDigits (base : Nat) : Nat → Text → Option Nat
  | acc, [] => some acc
  | acc, b :: bs =>
    match digitValue base b with
    | some d => readDigits base (acc * base + d) bs
    | none => none

/-- A numeral: at least one digit. -/
def readNumeral (base : Nat) : Text → Option Nat
  | [] => none
  | b :: bs => readDigits base 0 (b :: bs)

/-- Writes the digits of `n` in front of `acc`; `fuel` bounds their number. -/
def writeDigits (base : Nat) : Nat → Nat → Text → Text
  | 0, _, acc => acc
  | fuel + 1, n, acc =>
    if n < base then digitByte n :: acc
    else writeDigits base fuel (n / base) (digitByte (n % base) :: acc)

/-- The numeral of `n` without leading zeros. -/
def writeNumeral (base n : Nat) : Text := writeDigits base (n + 1) n []

/-- A binary digit as a bit. -/
def readBit (b : Byte) : Option Bool :=
  if b.toNat = 48 then some false else if b.toNat = 49 then some true else none

def bitByte (b : Bool) : Byte := if b then 49#8 else 48#8

/-- A string of binary digits, in the order written. -/
def readBits : Text → Option (List Bool)
  | [] => some []
  | b :: bs =>
    match readBit b, readBits bs with
    | some x, some xs => some (x :: xs)
    | _, _ => none

end Sys2Proof.Machine
end

