-- ==== Sys2Proof/Syntax.lean ====
section
/-! DEFINITION. The four operations of the block map (R54), each applied to named values (R59). -/

namespace Sys2Proof

/-- The first input port of a block and the name connected to it. `m` is the data width M the block is elaborated with,
which fixes the width of every port of it: a parameter of the block, and not of the state (R6, R27). -/
structure Input where
  m : Nat
  name : Ident
deriving DecidableEq, Repr

/-- One application of one block: the rows of spec/opcode_table.json. The names to the left of `=` in the notation come
first, in the order of the block's output ports, then the operands in the order of its input ports. -/
inductive Instr where
  /-- `codewordOut = ENC(dataIn)` (R68). -/
  | enc (codewordOut : Ident) (dataIn : Input)
  /-- `syndrome = SYN(codewordIn)` (R75). -/
  | syn (syndrome : Ident) (codewordIn : Input)
  /-- `(codewordOut, errorPosition, syndromeNonzero, syndromeBeyondN) = COR(codewordIn, syndromeIn)` (R80). -/
  | cor (codewordOut errorPosition syndromeNonzero syndromeBeyondN : Ident) (codewordIn : Input) (syndromeIn : Ident)
  /-- `dataOut = DEC(codewordIn)` (R87). -/
  | dec (dataOut : Ident) (codewordIn : Input)
deriving DecidableEq, Repr

end Sys2Proof
end

