-- ==== Sys2Proof/WellFormed.lean ====
section
/-! DEFINITION. Which applications can be written in the notation of R59: every name is a name. No width is
checked here: M is checked where the block is elaborated (R55), an operand's width where it meets its port (R115). -/

namespace Sys2Proof

/-- The data width M the block of an application is elaborated with (R6). -/
def Instr.width : Instr → Nat
  | .enc _ dataIn => dataIn.m
  | .syn _ codewordIn => codewordIn.m
  | .cor _ _ _ _ codewordIn _ => codewordIn.m
  | .dec _ codewordIn => codewordIn.m

/-- The names an application mentions, results first. -/
def Instr.names : Instr → List Ident
  | .enc codewordOut dataIn => [codewordOut, dataIn.name]
  | .syn syndrome codewordIn => [syndrome, codewordIn.name]
  | .cor codewordOut errorPosition syndromeNonzero syndromeBeyondN codewordIn syndromeIn =>
    [codewordOut, errorPosition, syndromeNonzero, syndromeBeyondN, codewordIn.name, syndromeIn]
  | .dec dataOut codewordIn => [dataOut, codewordIn.name]

/-- Every name is a letter followed by letters, digits and underscores (log 11). -/
def Instr.wf (i : Instr) : Bool := i.names.all Machine.isIdent

end Sys2Proof
end

