-- ==== Sys2Proof/Machine/Statement.lean ====
section
/-! DEFINITION. The statements of the dataflow notation (R59): what the environment does, one statement a line. -/

namespace Sys2Proof

/-- A literal of the notation. -/
inductive Literal where
  /-- `0x...`: an integer value (R9). -/
  | hex (n : Nat)
  /-- Explicit bits, position 1 first: a quoted bit string (R10, R32), or `W'b...` read from its right end (R9). -/
  | bits (bs : List Bool)
deriving DecidableEq, Repr

/-- What is XORed onto a value: a named value (R93) or a literal (R59). -/
inductive Operand where
  | name (n : Ident)
  | lit (l : Literal)
deriving DecidableEq, Repr

/-- One line of a program in the notation, under the elaboration parameter m in force at it (R59). -/
inductive Statement where
  /-- `param M = m`: a pipeline is elaborated (R59, R114). -/
  | param (m : Nat)
  /-- `dst = literal`: the environment names a literal. -/
  | literal (dst : Ident) (l : Literal)
  /-- `dst = src XOR e`: the environment's channel (R92). -/
  | channel (m : Nat) (dst src : Ident) (e : Operand)
  /-- One block applied to named values. -/
  | block (i : Instr)
  /-- `(codewordOut, errorPosition, syndromeNonzero, syndromeBeyondN) = DETCOR(codewordIn)` (R91). -/
  | detcor (m : Nat) (codewordOut errorPosition syndromeNonzero syndromeBeyondN codewordIn : Ident)
  /-- A line with nothing but blanks and a comment. -/
  | blank
deriving DecidableEq, Repr

def Operand.wf : Operand → Bool
  | .name n => Machine.isIdent n
  | .lit _ => true

/-- Every name in the statement is a name (log 11). -/
def Statement.wf : Statement → Bool
  | .param _ => true
  | .literal dst _ => Machine.isIdent dst
  | .channel _ dst src e => Machine.isIdent dst && Machine.isIdent src && e.wf
  | .block i => i.wf
  | .detcor _ a b c d e => [a, b, c, d, e].all Machine.isIdent
  | .blank => true

/-- The statement stands under the elaboration parameter m: what depends on a pipeline is of width m. -/
def Statement.isUnder (m : Nat) : Statement → Bool
  | .param _ => true
  | .literal _ _ => true
  | .channel m' _ _ _ => m' == m
  | .block i => i.width == m
  | .detcor m' _ _ _ _ _ => m' == m
  | .blank => true

end Sys2Proof
end

