-- ==== Sys2Proof/Decode.lean ====
section
/-! DEFINITION. The decoder and the encoder of statements. The hardware has no opcode (R54); the spec's only
written form of an operation is a line of the notation of R59, so an instruction's words are the ASCII bytes
of its program of one statement, the `param` line first (log 12). -/

namespace Sys2Proof

open Machine

/-- Why a text is no statement of the notation. -/
inductive DecodeError where
  /-- A byte that stands in no token. -/
  | badCharacter (b : Byte)
  /-- A word where a name must stand that is none. -/
  | badName (w : Text)
  /-- A word where a literal or a number must stand that is none. -/
  | badLiteral (w : Text)
  /-- A word where a block's mnemonic must stand that names no block with so many operands and results. -/
  | unknownBlock (w : Text)
  /-- The tokens have the form of no statement. -/
  | notAStatement
  /-- A statement stands where the elaboration parameter must be stated first (R59). -/
  | noParameter
deriving DecidableEq, Repr

inductive Token where
  | word (w : Text)
  | equals
  | lparen
  | rparen
  | comma
  | other (b : Byte)
deriving DecidableEq, Repr

/-- Drops a comment, which runs from `--` to the end of the line. -/
def stripComment : Text → Text
  | [] => []
  | [b] => [b]
  | a :: b :: bs => if a = 0x2D#8 ∧ b = 0x2D#8 then [] else a :: stripComment (b :: bs)

/-- The word read so far, as a token, if it is not empty. -/
def wordToken : Text → List Token
  | [] => []
  | b :: bs => [.word (b :: bs)]

/-- What a byte that is in no word stands for. -/
def symbolToken (b : Byte) : List Token :=
  if isBlankByte b then []
  else if b = 0x3D#8 then [.equals]
  else if b = 0x28#8 then [.lparen]
  else if b = 0x29#8 then [.rparen]
  else if b = 0x2C#8 then [.comma]
  else [.other b]

/-- Cuts a text into tokens; `w` is the word read so far. -/
def tokensFrom : Text → Text → List Token
  | w, [] => wordToken w
  | w, b :: bs =>
    if isWordByte b then tokensFrom (w ++ [b]) bs
    else wordToken w ++ symbolToken b ++ tokensFrom [] bs

def tokens (t : Text) : List Token := tokensFrom [] (stripComment t)

def kwParam : Text := ascii ['p', 'a', 'r', 'a', 'm']
def kwM : Text := ascii ['M']
def kwXor : Text := ascii ['X', 'O', 'R']
def kwEnc : Text := ascii ['E', 'N', 'C']
def kwSyn : Text := ascii ['S', 'Y', 'N']
def kwCor : Text := ascii ['C', 'O', 'R']
def kwDec : Text := ascii ['D', 'E', 'C']
def kwDetcor : Text := ascii ['D', 'E', 'T', 'C', 'O', 'R']

/-- `0x` and hexadecimal digits (R9). -/
def readHex (w : Text) : Option Literal :=
  match w with
  | a :: b :: ds => if a = 0x30#8 ∧ b = 0x78#8 then (readNumeral 16 ds).map .hex else none
  | _ => none

/-- A bit string between quotes, position 1 first (R10). -/
def readQuoted (w : Text) : Option Literal :=
  match w with
  | q :: bs =>
    if q = 0x22#8 ∧ bs.getLast? = some 0x22#8 then (readBits bs.dropLast).map .bits else none
  | [] => none

/-- `W'b` and exactly W binary digits, most significant first (R9). -/
def readSized (w : Text) : Option Literal :=
  match w.span isDigit with
  | (ds, q :: b :: bs) =>
    if q = 0x27#8 ∧ b = 0x62#8 ∧ readNumeral 10 ds = some bs.length
    then (readBits bs.reverse).map .bits else none
  | _ => none

def readLiteral (w : Text) : Except DecodeError Literal :=
  match (readHex w).or ((readQuoted w).or (readSized w)) with
  | some l => .ok l
  | none => .error (.badLiteral w)

/-- The statement, if every name in it is a name. -/
def checkNames (names : List Text) (s : Statement) : Except DecodeError Statement :=
  match names.find? (fun n => !isIdent n) with
  | some n => .error (.badName n)
  | none => .ok s

/-- A word that starts as a name is a name, any other a literal. -/
def readOperand (w : Text) : Except DecodeError Operand :=
  if isIdent w then .ok (.name w) else (readLiteral w).map .lit

/-- The blocks with one operand and one result. -/
def readUnary (m : Nat) (dst f src : Text) : Except DecodeError Statement :=
  if f = kwEnc then checkNames [dst, src] (.block (.enc dst ⟨m, src⟩))
  else if f = kwSyn then checkNames [dst, src] (.block (.syn dst ⟨m, src⟩))
  else if f = kwDec then checkNames [dst, src] (.block (.dec dst ⟨m, src⟩))
  else .error (.unknownBlock f)

/-- The statement the tokens of a line make under the elaboration parameter m. -/
def parse (m : Nat) (ts : List Token) : Except DecodeError Statement :=
  match ts with
  | [] => .ok .blank
  | [.word p, .word v, .equals, .word n] =>
    if p = kwParam ∧ v = kwM then
      match readNumeral 10 n with
      | some k => .ok (.param k)
      | none => .error (.badLiteral n)
    else .error .notAStatement
  | [.word dst, .equals, .word l] => do
    checkNames [dst] (.literal dst (← readLiteral l))
  | [.word dst, .equals, .word src, .word x, .word e] =>
    if x = kwXor then do
      checkNames [dst, src] (.channel m dst src (← readOperand e))
    else .error .notAStatement
  | [.word dst, .equals, .word f, .lparen, .word src, .rparen] => readUnary m dst f src
  | [.lparen, .word c, .comma, .word e, .comma, .word nz, .comma, .word bn, .rparen, .equals,
      .word f, .lparen, .word src, .rparen] =>
    if f = kwDetcor then checkNames [c, e, nz, bn, src] (.detcor m c e nz bn src)
    else .error (.unknownBlock f)
  | [.lparen, .word c, .comma, .word e, .comma, .word nz, .comma, .word bn, .rparen, .equals,
      .word f, .lparen, .word src, .comma, .word s, .rparen] =>
    if f = kwCor then checkNames [c, e, nz, bn, src, s] (.block (.cor c e nz bn ⟨m, src⟩ s))
    else .error (.unknownBlock f)
  | _ => .error .notAStatement

/-- The byte of a token that is in no statement. -/
def Token.otherByte : Token → Option Byte
  | .other b => some b
  | _ => none

/-- The statement a line of text is under the elaboration parameter m, total on any bytes, rejecting by name. -/
def decodeStatement (m : Nat) (t : Text) : Except DecodeError Statement :=
  match (tokens t).findSome? Token.otherByte with
  | some b => .error (.badCharacter b)
  | none => parse m (tokens t)

/-- The parameter a `param` line states. What a line of it is does not depend on the parameter in force. -/
def decodeParam (t : Text) : Except DecodeError Nat :=
  match decodeStatement 0 t with
  | .ok (.param m) => .ok m
  | .ok _ => .error .noParameter
  | .error e => .error e

/-- The lines of a text: a line feed stands between two of them. -/
def lines : Text → List Text
  | [] => [[]]
  | b :: bs =>
    if b = 0x0A#8 then [] :: lines bs
    else match lines bs with
      | [] => [[b]]
      | l :: ls => (b :: l) :: ls

/-- The application a line is under the parameter m. -/
def decodeBlock (m : Nat) (line : Text) : Except DecodeError Instr :=
  match decodeStatement m line with
  | .ok (.block i) => .ok i
  | .ok _ => .error .notAStatement
  | .error e => .error e

/-- The decoder: the instruction a text of two lines is, the elaboration parameter stated first (R59). -/
def decode (t : Text) : Except DecodeError Instr :=
  match lines t with
  | [header, line] =>
    match decodeParam header with
    | .ok m => decodeBlock m line
    | .error e => .error e
  | _ => .error .notAStatement

/-- `name = F(operand)`. -/
def writeUnary (dst f src : Text) : Text :=
  dst ++ ascii [' ', '=', ' '] ++ f ++ ascii ['('] ++ src ++ ascii [')']

/-- `(a, b, c, d) = F(`. -/
def writeResults (a b c d f : Text) : Text :=
  ascii ['('] ++ a ++ ascii [',', ' '] ++ b ++ ascii [',', ' '] ++ c ++ ascii [',', ' '] ++ d
    ++ ascii [')', ' ', '=', ' '] ++ f ++ ascii ['(']

/-- The line of an application (R59). -/
def blockLine : Instr → Text
  | .enc codewordOut dataIn => writeUnary codewordOut kwEnc dataIn.name
  | .syn syndrome codewordIn => writeUnary syndrome kwSyn codewordIn.name
  | .cor codewordOut errorPosition syndromeNonzero syndromeBeyondN codewordIn syndromeIn =>
    writeResults codewordOut errorPosition syndromeNonzero syndromeBeyondN kwCor
      ++ codewordIn.name ++ ascii [',', ' '] ++ syndromeIn ++ ascii [')']
  | .dec dataOut codewordIn => writeUnary dataOut kwDec codewordIn.name

/-- `param M = m` (R59). -/
def paramLine (m : Nat) : Text := kwParam ++ ascii [' '] ++ kwM ++ ascii [' ', '=', ' '] ++ writeNumeral 10 m

/-- The encoder: the words of an instruction, the elaboration parameter and then its line (R59). -/
def encode (i : Instr) : Text := paramLine i.width ++ 0x0A#8 :: blockLine i

def writeLiteral : Literal → Text
  | .hex n => ascii ['0', 'x'] ++ writeNumeral 16 n
  | .bits bs => ascii ['"'] ++ bs.map bitByte ++ ascii ['"']

def writeOperand : Operand → Text
  | .name n => n
  | .lit l => writeLiteral l

/-- The line of any statement of the notation. The parameter in force is not part of it. -/
def encodeStatement : Statement → Text
  | .param m => paramLine m
  | .literal dst l => dst ++ ascii [' ', '=', ' '] ++ writeLiteral l
  | .channel _ dst src e =>
    dst ++ ascii [' ', '=', ' '] ++ src ++ ascii [' '] ++ kwXor ++ ascii [' '] ++ writeOperand e
  | .block i => blockLine i
  | .detcor _ codewordOut errorPosition syndromeNonzero syndromeBeyondN codewordIn =>
    writeResults codewordOut errorPosition syndromeNonzero syndromeBeyondN kwDetcor
      ++ codewordIn ++ ascii [')']
  | .blank => []

/-- The bytes of an instruction's word: byte j is bits 8j+7..8j, and the bits from `nbits` on are 0. -/
def textOfWord (nbits w : Nat) : Text :=
  (List.range ((nbits + 7) / 8)).map fun j => BitVec.ofNat 8 ((w >>> (8 * j)) % 2 ^ min 8 (nbits - 8 * j))

/-- The instruction the decoder reads from a word. The table gives its four rows no bit of their own (match
and mask 0, R54), so a word is read as the text its bytes spell (log 12). -/
def decodeTableWord (nbits w : Nat) : Option Instr :=
  match decode (textOfWord nbits w) with
  | .ok i => some i
  | .error _ => none

end Sys2Proof
end

