-- ==== Sys2Proof/Machine/Positions.lean ====
section
/-! DEFINITION. Positions and the bits at them (R9 to R11, R30, R31), and exclusive or over positions (R66). -/

namespace Sys2Proof.Machine

/-- `P(v, i)`: the bit of `v` at the 1-based position i, port bit i - 1 (R10, R31). -/
def bitAt {w : Nat} (v : BitVec w) (i : Nat) : Bool := v.getLsbD (i - 1)

/-- The w-bit vector whose port bit j is `f j`. -/
def ofPortBits : (w : Nat) → (Nat → Bool) → BitVec w
  | 0, _ => 0#0
  | w + 1, f => BitVec.cons (f w) (ofPortBits w f)

/-- The w-bit vector whose bit at position i is `f i`, for i in 1..w. -/
def ofPositions (w : Nat) (f : Nat → Bool) : BitVec w := ofPortBits w fun j => f (j + 1)

/-- A bit sequence, position 1 first, as a vector of width w (R32). -/
def ofBitList (w : Nat) (bs : List Bool) : BitVec w := ofPositions w fun i => bs.getD (i - 1) false

/-- The one-hot vector with only position p set (R65), `1 << (p-1)` (R92). -/
def oneHot (w p : Nat) : BitVec w := ofPositions w fun i => i == p

/-- The positions 1..n in increasing order (R11, `for i in 1..n`). -/
def positions (n : Nat) : List Nat := List.range' 1 n

/-- `floor_log2(i)`: for i ≥ 1 the largest k with 2^k ≤ i (R11). -/
def floorLog2 (i : Nat) : Nat := Nat.log2 i

/-- `ispow2(i)`: i ≥ 1 and i = 2^k for some k (R11). -/
def isPow2 (i : Nat) : Bool := decide (1 ≤ i) && i == 2 ^ floorLog2 i

/-- `XOR over i in 1..n of f(i)` (R11, R66). -/
def xorOver : Nat → (Nat → Bool) → Bool
  | 0, _ => false
  | n + 1, f => Bool.xor (xorOver n f) (f (n + 1))

end Sys2Proof.Machine
end

