-- ==== Sys2Proof/Machine/Sizing.lean ====
section
/-! DEFINITION. The elaboration-time functions: sizes (R43 to R48) and the maps between positions and data
bits (R49, R50). -/

namespace Sys2Proof.Machine

/-- The loop of `computeRedundancy`: increments r while 2^r < m + r + 1, at most `fuel` times (R43). -/
def redundancyFrom (m : Nat) : Nat → Nat → Nat
  | 0, r => r
  | fuel + 1, r => if 2 ^ r < m + r + 1 then redundancyFrom m fuel (r + 1) else r

/-- `computeRedundancy(m)` (R43). The loop starts at 0 and has ended by r = m + 1, as 2^(m+1) ≥ 2m + 2. -/
def computeRedundancy (m : Nat) : Nat := redundancyFrom m (m + 1) 0

/-- The codeword length m + computeRedundancy(m) (R46). -/
def codewordLength (m : Nat) : Nat := m + computeRedundancy m

/-- `inferRedundancy(n)`, `none` where it refuses (R47). -/
def inferRedundancy (n : Nat) : Option Nat :=
  (List.range (n + 1)).find? fun r => computeRedundancy (n - r) == r

/-- The data positions in 1..n: those that are no power of two, in increasing order (R50). -/
def dataPositions (n : Nat) : List Nat := (positions n).filter fun i => !isPow2 i

/-- `dpos(j)`: the j-th smallest data position in 1..n, for j in 1..n-r (R50). -/
def dpos (n j : Nat) : Nat := (dataPositions n).getD (j - 1) 0

/-- `didx(i) = i - floor_log2(i) - 1`: which data bit stands at the data position i (R50). -/
def didx (i : Nat) : Nat := i - floorLog2 i - 1

end Sys2Proof.Machine
end

