-- ==== Sys2Proof/Machine/State.lean ====
section
/-! DEFINITION. The state: the values on the ports of the instances of the four blocks (R17, R22 to R25, R110), and what the environment
holds: its named values, its program (R59) and its tool's limit (R8). M, R, N and the maps derived from them are
parameters of the block functions and no fields of the state (R27). -/

namespace Sys2Proof.Machine

/-- Reasons for a run-time exception: none exists, since no block traps, halts, stalls, signals an error or
refuses an input at run time (R99, R103). No meaning raises a fault. -/
inductive Fault where
deriving DecidableEq, Repr

/-- Reasons for which there is no hardware, no evaluation or no statement. -/
inductive Refusal where
  /-- Raised by no meaning: every instruction of the table has its meaning. Safe. -/
  | notModelled (mnemonic : String)
  /-- M = 0: elaboration refuses, `ZeroDataWidth`, recording the parameter (R55, R100). Raised by `param`, by
  `widthOfLength` and by every block so parametrised. Safe. -/
  | zeroDataWidth (m : Nat)
  /-- A codeword length n that is 0 or a power of two: `InvalidCodewordLength`, recording n (R48, R55, R100).
  Raised by `widthOfLength`. Safe. -/
  | invalidCodewordLength (n : Nat)
  /-- M > M_MAX: `DataWidthTooLarge`, recording the parameter (R55, R100). Raised as `zeroDataWidth` is. Safe. -/
  | dataWidthTooLarge (m : Nat)
  /-- An operand names no value, so the environment does not drive the input: there is no evaluation with an
  undriven input (R29, 93_implementation_defined.md row 6). Raised by the four blocks, DETCOR and XOR. Safe. -/
  | undrivenInput (name : Ident)
  /-- A value does not have the width of the port it is connected to, or a literal does not fit in it: a model
  that connects blocks refuses a mismatch (R115, `zext_W` of R11). Raised by the four blocks, DETCOR and
  XOR. Safe. -/
  | widthMismatch (portWidth : Nat) (v : Value)
  /-- The next line is no statement of the notation, or stands before any `param` (R59). Raised by `step`. Safe. -/
  | badStatement (e : DecodeError)
deriving DecidableEq, Repr

/-- The settled values on the ports of one instance of `hamming_ecc_encoder` (R22). -/
structure EncoderPorts where
  dataIn : Vec
  codewordOut : Vec
deriving DecidableEq, Repr

/-- The settled values on the ports of one instance of `hamming_ecc_syndrome_generator` (R23). -/
structure SyndromeGeneratorPorts where
  codewordIn : Vec
  syndrome : Vec
deriving DecidableEq, Repr

/-- The settled values on the ports of one instance of `hamming_ecc_error_corrector` (R24). -/
structure ErrorCorrectorPorts where
  codewordIn : Vec
  syndromeIn : Vec
  codewordOut : Vec
  errorPosition : Vec
  syndromeNonzero : Vec
  syndromeBeyondN : Vec
deriving DecidableEq, Repr

/-- The settled values on the ports of one instance of `hamming_ecc_decoder` (R25). -/
structure DecoderPorts where
  codewordIn : Vec
  dataOut : Vec
deriving DecidableEq, Repr

/-- A wire of the environment that the first output port of an instance drives (R15, R91, log 6). -/
inductive Wire where
  /-- The wire the environment reads as the named value n. -/
  | named (n : Ident)
  /-- The unnamed wire from `syndrome` to `syndrome_in` inside the DETCOR whose `codeword_out` drives n. -/
  | inside (n : Ident)
deriving DecidableEq, Repr

/-- One instance as the environment has wired it: the wire its first output port drives, and what is on its ports. The
instance itself has no identifier (R110). -/
structure Wired (P : Type) where
  wire : Wire
  ports : P
deriving DecidableEq, Repr

/-- The blocks hold no state of their own (R14): what is here is the settled values on the ports of every instance
whose inputs are driven (R17, R29, R113), any number of each block, of the same or different M (R110), and what the
environment holds. -/
structure State where
  encoders : List (Wired EncoderPorts)
  syndromeGenerators : List (Wired SyndromeGeneratorPorts)
  errorCorrectors : List (Wired ErrorCorrectorPorts)
  decoders : List (Wired DecoderPorts)
  /-- The named values, each name once (R59). -/
  values : List (Ident × Value)
  /-- The lines of the environment's program that are still to be made, behind the `param` line in force (R59,
  log 5). -/
  program : List Text
  /-- M_MAX of the environment's tool (R8). Nothing writes it. -/
  maxM : WidthLimit
deriving DecidableEq, Repr

abbrev StepOutcome := Host.Outcome State Fault Refusal

/-- No instance has a driven input, so no output has a settled value (R28, R113). What the environment holds is as
given. -/
def State.undriven (values : List (Ident × Value)) (program : List Text) (maxM : WidthLimit) : State where
  encoders := []
  syndromeGenerators := []
  errorCorrectors := []
  decoders := []
  values := values
  program := program
  maxM := maxM

/-- No block has a reset (R112): this is power-up (R113), with nothing driven, no named value and no program. DESIGN
CHOICE: no M_MAX (log 2). -/
def State.reset : State := State.undriven [] [] none

end Sys2Proof.Machine
end

