-- ==== Sys2Proof/Machine/Operands.lean ====
section
/-! DEFINITION. Operands: how a named value or a literal meets a port (R29, R59, R115). -/

namespace Sys2Proof.Machine

/-- A literal as the value it names: explicit bits have a width of their own, a hexadecimal literal takes that
of the port it meets (R9, R32). -/
def literalValue : Literal → Value
  | .hex n => .literal n
  | .bits bs => .vec ⟨bs.length, ofBitList bs.length bs⟩

/-- The vector a port of width w carries when the value is connected to it, if its width is w (R115), or, for a
literal, if it fits (`zext_W`, R11). -/
def onPort (w : Nat) : Value → Option (BitVec w)
  | .literal n => if n < 2 ^ w then some (BitVec.ofNat w n) else none
  | .vec v => if v.width = w then some (v.bits.setWidth w) else none

/-- The value of a name, if it has one. -/
def lookupIn (n : Ident) : List (Ident × Value) → Option Value
  | [] => none
  | (m, v) :: rest => if m = n then some v else lookupIn n rest

/-- What a port of width w is driven to by a value that may be absent: an absent value drives nothing (R29). -/
def drivePort (w : Nat) (n : Ident) : Option Value → Except Refusal (BitVec w)
  | none => .error (.undrivenInput n)
  | some v =>
    match onPort w v with
    | some b => .ok b
    | none => .error (.widthMismatch w v)

/-- What an input port of width w is driven to when the named value is connected to it. -/
def State.readInput (s : State) (w : Nat) (n : Ident) : Except Refusal (BitVec w) :=
  drivePort w n (lookupIn n s.values)

/-- The value of a name as the environment's XOR reads it. -/
def State.readValue (s : State) (n : Ident) : Except Refusal Value :=
  match lookupIn n s.values with
  | some v => .ok v
  | none => .error (.undrivenInput n)

/-- The value of the right operand of XOR. -/
def State.readOperand (s : State) : Operand → Except Refusal Value
  | .name n => s.readValue n
  | .lit l => .ok (literalValue l)

/-- The width in which two values are XORed: that of the one that has a width, else that of a codeword (R92,
log 13). -/
def xorWidth (codeword : Nat) : Value → Value → Nat
  | .vec v, _ => v.width
  | .literal _, .vec v => v.width
  | .literal _, .literal _ => codeword

end Sys2Proof.Machine
end

