-- ==== Sys2Proof/Machine/Ops.lean ====
section
/-! DEFINITION. The named operations every meaning is made of: elaboration and its refusals, reading an input
port, naming an output. There is no exception to take and none to return from (R99, R103, R104). -/

namespace Sys2Proof.Machine

/-- The first refusal of R100's table that applies to the parameter m (R106), if any: `ZeroDataWidth`, then
`DataWidthTooLarge`. -/
def elaborationRefusal (m : Nat) (maxM : WidthLimit) : Option Refusal :=
  if m = 0 then some (.zeroDataWidth m)
  else match maxM with
    | some limit => if limit < m then some (.dataWidthTooLarge m) else none
    | none => none

/-- Hardware exists for this parameter: 1 ≤ m ≤ M_MAX (R6, R55). -/
def isElaborable (m : Nat) (maxM : WidthLimit) : Bool := (elaborationRefusal m maxM).isNone

/-- The data width of an instantiator that is given a codeword width n instead of M (R47, R55). n = 0 infers M = 0,
so `ZeroDataWidth` comes first (R48, R106, log 14). -/
def widthOfLength (n : Nat) (maxM : WidthLimit) : Except Refusal Nat :=
  match inferRedundancy n with
  | some r =>
    match elaborationRefusal (n - r) maxM with
    | some e => .error e
    | none => .ok (n - r)
  | none => .error (.invalidCodewordLength n)

/-- Evaluates a block of data width m only where hardware exists (R55). -/
def State.onHardware (s : State) (m : Nat) (evaluate : StepOutcome) : StepOutcome :=
  match elaborationRefusal m s.maxM with
  | some e => .refused e
  | none => evaluate

/-- Drives an input port of width w from a named value and goes on with the vector it carries (R29, R115). -/
def State.withInput (s : State) (w : Nat) (n : Ident) (evaluate : BitVec w → StepOutcome) : StepOutcome :=
  match s.readInput w n with
  | .ok v => evaluate v
  | .error e => .refused e

/-- Binds a name: it replaces the value the name had, and a new name comes last (log 10). -/
def bindIn (n : Ident) (v : Value) : List (Ident × Value) → List (Ident × Value)
  | [] => [(n, v)]
  | (m, u) :: rest => if m = n then (n, v) :: rest else (m, u) :: bindIn n v rest

/-- The environment names a value. -/
def State.bind (s : State) (n : Ident) (v : Value) : State := { s with values := bindIn n v s.values }

/-- The environment names the vector it reads from an output port. -/
def State.name {w : Nat} (s : State) (n : Ident) (v : BitVec w) : State := s.bind n (.vec ⟨w, v⟩)

/-- What a port carries when it is driven to a vector. -/
def driven {w : Nat} (v : BitVec w) : Vec := ⟨w, v⟩

/-! The width of the first input port of an instance, which its M fixes for good (R41). -/

def EncoderPorts.inputWidth (p : EncoderPorts) : Nat := p.dataIn.width
def SyndromeGeneratorPorts.inputWidth (p : SyndromeGeneratorPorts) : Nat := p.codewordIn.width
def ErrorCorrectorPorts.inputWidth (p : ErrorCorrectorPorts) : Nat := p.codewordIn.width
def DecoderPorts.inputWidth (p : DecoderPorts) : Nat := p.codewordIn.width

/-- The inputs of the instance that drives the wire change, and all of its ports settle anew: what was on them is
replaced (R35, R97, R102). Where no instance of that width drives the wire, a further one does from now on (R110). Every
other instance stays (log 6). `width` is the width of the first input port. -/
def settleOn {P : Type} (width : P → Nat) (w : Wire) (p : P) : List (Wired P) → List (Wired P)
  | [] => [⟨w, p⟩]
  | i :: rest => if i.wire = w ∧ width i.ports = width p then ⟨w, p⟩ :: rest else i :: settleOn width w p rest

end Sys2Proof.Machine
end

