-- ==== Sys2Proof/Machine/Decoder.lean ====
section
/-! DEFINITION. `hamming_ecc_decoder`, DEC (R87, R88). -/

namespace Sys2Proof.Machine

/-- `data_out[j-1] <- P(codeword_in, dpos(j))` for j in 1..M (R87). The parity positions are not read (R88). -/
def decodeWord (m : Nat) (c : BitVec (codewordLength m)) : BitVec m :=
  ofPositions m fun j => bitAt c (dpos (codewordLength m) j)

/-- The decoder of data width m that drives the wire settles on its `codeword_in`. -/
def State.driveDecoder (s : State) (w : Wire) (m : Nat) (c : BitVec (codewordLength m)) : State :=
  { s with decoders := settleOn DecoderPorts.inputWidth w ⟨driven c, driven (decodeWord m c)⟩ s.decoders }

/-- `dataOut = DEC(codewordIn)` (R87). -/
def execDec (dataOut : Ident) (codewordIn : Input) (s : State) : StepOutcome :=
  s.onHardware codewordIn.m <| s.withInput (codewordLength codewordIn.m) codewordIn.name fun c =>
    .next ((s.driveDecoder (.named dataOut) codewordIn.m c).name dataOut (decodeWord codewordIn.m c))

end Sys2Proof.Machine
end

