-- ==== Sys2Proof/Machine/Parity.lean ====
section
/-! DEFINITION. Coverage groups and the parity computer (R60 to R65), shared by the encoder and the syndrome
generator. -/

namespace Sys2Proof.Machine

/-- Membership of position i in coverage group k: `(i & 2^k) != 0` (R60). -/
def inGroup (i k : Nat) : Bool := i &&& 2 ^ k != 0

/-- `CoverageGroup(k)` of a codeword of length n, in increasing order (R60). -/
def coverageGroup (n k : Nat) : List Nat := (positions n).filter fun i => inGroup i k

/-- `groupParity(v, k)`: the XOR of the bits of v at the positions of group k (R63). -/
def groupParity {n : Nat} (v : BitVec n) (k : Nat) : Bool :=
  xorOver n fun i => inGroup i k && bitAt v i

/-- `applyParity(v)`: every parity position is overwritten with the parity of its group, all computed from v;
every other position is copied (R64). -/
def applyParity {n : Nat} (v : BitVec n) : BitVec n :=
  ofPositions n fun i => if isPow2 i then groupParity v (floorLog2 i) else bitAt v i

/-- One write of `applyParity` on its own: the bit at position 2^k is overwritten with the parity of group k
of the vector as currently stored (R63, R64). -/
def setParity {n : Nat} (v : BitVec n) (k : Nat) : BitVec n :=
  ofPositions n fun i => if i = 2 ^ k then groupParity v k else bitAt v i

end Sys2Proof.Machine
end

