-- ==== Sys2Proof/Machine/Encoder.lean ====
section
/-! DEFINITION. `hamming_ecc_encoder`, ENC (R68 to R70). -/

namespace Sys2Proof.Machine

/-- The layout loop (R69) over the next `count` positions: i is the position, pw the next unconsumed power of
two, j the next unconsumed data bit. It gives the bits placed, and where pw and j end. -/
def layoutFrom {m : Nat} (d : BitVec m) : (count i pw j : Nat) → List Bool × Nat × Nat
  | 0, _, pw, j => ([], pw, j)
  | count + 1, i, pw, j =>
    if i = pw then
      let (bits, ends) := layoutFrom d count (i + 1) (2 * pw) j
      (false :: bits, ends)
    else
      let (bits, ends) := layoutFrom d count (i + 1) pw (j + 1)
      (bitAt d j :: bits, ends)

/-- The whole layout loop: i in 1..N, pw and j starting at 1 (R69). -/
def layoutLoop (m : Nat) (d : BitVec m) : List Bool × Nat × Nat := layoutFrom d (codewordLength m) 1 1 1

/-- `layout(data)`: the skeleton (R69). -/
def layout (m : Nat) (d : BitVec m) : BitVec (codewordLength m) :=
  ofBitList (codewordLength m) (layoutLoop m d).1

/-- `codeword_out <- applyParity(layout(data_in))` (R68, R70). -/
def encodeWord (m : Nat) (d : BitVec m) : BitVec (codewordLength m) := applyParity (layout m d)

/-- The encoder of data width m that drives the wire settles on its `data_in`. -/
def State.driveEncoder (s : State) (w : Wire) (m : Nat) (d : BitVec m) : State :=
  { s with encoders := settleOn EncoderPorts.inputWidth w ⟨driven d, driven (encodeWord m d)⟩ s.encoders }

/-- `codewordOut = ENC(dataIn)` (R68). -/
def execEnc (codewordOut : Ident) (dataIn : Input) (s : State) : StepOutcome :=
  s.onHardware dataIn.m <| s.withInput dataIn.m dataIn.name fun d =>
    .next ((s.driveEncoder (.named codewordOut) dataIn.m d).name codewordOut (encodeWord dataIn.m d))

end Sys2Proof.Machine
end

