-- ==== Sys2Proof/Machine/Flags.lean ====
section
/-! DEFINITION. The two status outputs of the error corrector (R19, R80, R102). Both are recomputed at every
evaluation and nothing else sets them. -/

namespace Sys2Proof.Machine

/-- `syndrome_nonzero <- 1 if s != 0 else 0` (R80). -/
def syndromeNonzeroFlag {r : Nat} (s : BitVec r) : BitVec 1 := BitVec.ofBool (s.toNat != 0)

/-- `syndrome_beyond_n <- 1 if s > N else 0`, an unsigned comparison (R67, R80). -/
def syndromeBeyondNFlag {r : Nat} (n : Nat) (s : BitVec r) : BitVec 1 := BitVec.ofBool (decide (n < s.toNat))

end Sys2Proof.Machine
end

