-- ==== Sys2Proof/Machine/ErrorCorrector.lean ====
section
/-! DEFINITION. `hamming_ecc_error_corrector`, COR (R80 to R83, R86). -/

namespace Sys2Proof.Machine

/-- `P(codeword_out, i) <- P(codeword_in, i) XOR (1 if s == i else 0)` (R80). The one loop gives the three cases
R81, R82 and R83, since no position is 0 or above N. The syndrome is not checked against the codeword (R86). -/
def correctedWord {n r : Nat} (c : BitVec n) (s : BitVec r) : BitVec n :=
  ofPositions n fun i => Bool.xor (bitAt c i) (s.toNat == i)

/-- The error corrector of codeword length n that drives the wire settles on its `codeword_in` and `syndrome_in`. Its
status outputs are those of these inputs alone, whatever they were (R102); `error_position` is the raw syndrome
(R80). -/
def State.driveErrorCorrector (s : State) (w : Wire) {n r : Nat} (c : BitVec n) (syn : BitVec r) : State :=
  { s with
    errorCorrectors := settleOn ErrorCorrectorPorts.inputWidth w
      { codewordIn := driven c
        syndromeIn := driven syn
        codewordOut := driven (correctedWord c syn)
        errorPosition := driven syn
        syndromeNonzero := driven (syndromeNonzeroFlag syn)
        syndromeBeyondN := driven (syndromeBeyondNFlag n syn) } s.errorCorrectors }

/-- The environment names the four outputs of the error corrector, in the order of its ports (R24). -/
def State.nameCorrectorOutputs (s : State) (codewordOut errorPosition syndromeNonzero syndromeBeyondN : Ident)
    {n r : Nat} (c : BitVec n) (syn : BitVec r) : State :=
  (((s.name codewordOut (correctedWord c syn)).name errorPosition syn).name syndromeNonzero
    (syndromeNonzeroFlag syn)).name syndromeBeyondN (syndromeBeyondNFlag n syn)

/-- `(codewordOut, errorPosition, syndromeNonzero, syndromeBeyondN) = COR(codewordIn, syndromeIn)` (R80). -/
def execCor (codewordOut errorPosition syndromeNonzero syndromeBeyondN : Ident) (codewordIn : Input)
    (syndromeIn : Ident) (s : State) : StepOutcome :=
  s.onHardware codewordIn.m <| s.withInput (codewordLength codewordIn.m) codewordIn.name fun c =>
    s.withInput (computeRedundancy codewordIn.m) syndromeIn fun syn =>
      .next ((s.driveErrorCorrector (.named codewordOut) c syn).nameCorrectorOutputs codewordOut errorPosition syndromeNonzero
        syndromeBeyondN c syn)

end Sys2Proof.Machine
end

