-- ==== Sys2Proof/Machine/SyndromeGenerator.lean ====
section
/-! DEFINITION. `hamming_ecc_syndrome_generator`, SYN (R75). -/

namespace Sys2Proof.Machine

/-- `syndrome[k] <- groupParity(codeword_in, k)` for k in 0..R-1 (R75). -/
def syndromeOf (m : Nat) (c : BitVec (codewordLength m)) : BitVec (computeRedundancy m) :=
  ofPortBits (computeRedundancy m) fun k => groupParity c k

/-- The syndrome generator of data width m that drives the wire settles on its `codeword_in`. -/
def State.driveSyndromeGenerator (s : State) (w : Wire) (m : Nat) (c : BitVec (codewordLength m)) : State :=
  { s with
    syndromeGenerators :=
      settleOn SyndromeGeneratorPorts.inputWidth w ⟨driven c, driven (syndromeOf m c)⟩ s.syndromeGenerators }

/-- `syndrome = SYN(codewordIn)` (R75). -/
def execSyn (syndrome : Ident) (codewordIn : Input) (s : State) : StepOutcome :=
  s.onHardware codewordIn.m <| s.withInput (codewordLength codewordIn.m) codewordIn.name fun c =>
    .next ((s.driveSyndromeGenerator (.named syndrome) codewordIn.m c).name syndrome (syndromeOf codewordIn.m c))

end Sys2Proof.Machine
end

