-- ==== Sys2Proof/Machine/Dispatch.lean ====
section
/-! DEFINITION. One arm for each operation of the block map (R54). -/

namespace Sys2Proof.Machine

def exec (i : Instr) (s : State) : Host.Outcome State Fault Refusal :=
  match i with
  | .enc codewordOut dataIn => Sys2Proof.Machine.execEnc codewordOut dataIn s
  | .syn syndrome codewordIn => Sys2Proof.Machine.execSyn syndrome codewordIn s
  | .cor codewordOut errorPosition syndromeNonzero syndromeBeyondN codewordIn syndromeIn => Sys2Proof.Machine.execCor codewordOut errorPosition syndromeNonzero syndromeBeyondN codewordIn syndromeIn s
  | .dec dataOut codewordIn => Sys2Proof.Machine.execDec dataOut codewordIn s

end Sys2Proof.Machine
end

