-- ==== Sys2Proof/Machine/Environment.lean ====
section
/-! DEFINITION. What the environment does by a statement of the notation that applies no single block: elaborate
(R114), name a literal (R59), corrupt by XOR (R92), and wire DETCOR (R91). -/

namespace Sys2Proof.Machine

/-- `param M = m`: the blocks of the applications that follow are elaborated with m, or refused (R55, R114). None of
them is driven yet, so none has a settled value (R113); the instances there are, of this M or another, stay (R110), and
so does what the environment holds (log 7). -/
def execParam (m : Nat) (s : State) : StepOutcome :=
  match elaborationRefusal m s.maxM with
  | some e => .refused e
  | none => .next s

/-- `dst = literal` (R59). -/
def execLiteral (dst : Ident) (l : Literal) (s : State) : StepOutcome := .next (s.bind dst (literalValue l))

/-- The bitwise XOR of two values in width w, named `dst` (R11, R92). -/
def State.xorValues (s : State) (w : Nat) (dst : Ident) (a b : Value) : StepOutcome :=
  match onPort w a, onPort w b with
  | some x, some y => .next (s.name dst (x ^^^ y))
  | none, _ => .refused (.widthMismatch w a)
  | _, none => .refused (.widthMismatch w b)

/-- `dst = src XOR e`: the channel, an action of the environment that touches no block (R92). -/
def execChannel (m : Nat) (dst src : Ident) (e : Operand) (s : State) : StepOutcome :=
  match s.readValue src with
  | .error r => .refused r
  | .ok a =>
    match s.readOperand e with
    | .error r => .refused r
    | .ok b => s.xorValues (xorWidth (codewordLength m) a b) dst a b

/-- `(codewordOut, errorPosition, syndromeNonzero, syndromeBeyondN) = DETCOR(codewordIn)`: the syndrome generator
followed by the error corrector on the same codeword, the wire from `syndrome` to `syndrome_in` carrying the
syndrome unchanged and unnamed (R91, log 18). -/
def execDetcor (m : Nat) (codewordOut errorPosition syndromeNonzero syndromeBeyondN codewordIn : Ident) (s : State) :
    StepOutcome :=
  s.onHardware m <| s.withInput (codewordLength m) codewordIn fun c =>
    .next (((s.driveSyndromeGenerator (.inside codewordOut) m c).driveErrorCorrector (.named codewordOut) c
      (syndromeOf m c)).nameCorrectorOutputs codewordOut errorPosition syndromeNonzero syndromeBeyondN c
        (syndromeOf m c))

/-- A line with no statement does nothing (log 11). -/
def execBlank (s : State) : StepOutcome := .next s

/-- What is left of a program once the statement on `line` is made under `header`: the parameter in force stays first,
and a new `param` line takes its place. -/
def programAfter (header line : Text) (rest : List Text) : Statement → List Text
  | .param _ => line :: rest
  | _ => header :: rest

end Sys2Proof.Machine
end

