-- ==== Sys2Proof/Machine/Step.lean ====
section
/-! DEFINITION. One step: the environment makes the next statement of its program (R59, R97). -/

namespace Sys2Proof.Machine

/-- What a statement does. -/
def runStatement : Statement → State → StepOutcome
  | .param m, s => execParam m s
  | .literal dst l, s => execLiteral dst l s
  | .channel m dst src e, s => execChannel m dst src e s
  | .block i, s => exec i s
  | .detcor m a b c d e, s => execDetcor m a b c d e s
  | .blank, s => execBlank s

/-- The next statement behind the `param` line in force is decoded and made. No statement is made under a parameter
that elaboration refuses (R55). -/
def stepUnder (m : Nat) (header : Text) (lines : List Text) (s : State) : StepOutcome :=
  s.onHardware m <|
    match lines with
    | [] => .next s
    | line :: rest =>
      match decodeStatement m line with
      | .ok st => runStatement st { s with program := programAfter header line rest st }
      | .error e => .refused (.badStatement e)

/-- A program states its elaboration parameter first (R59), behind blank lines at most. With no statement left no
input changes, so every port keeps its value (R35, log 15). -/
def step (s : State) : Host.Outcome State Fault Refusal :=
  match s.program with
  | [] => .next s
  | header :: rest =>
    match decodeStatement 0 header with
    | .ok (.param m) => stepUnder m header rest s
    | .ok .blank => .next { s with program := rest }
    | .ok _ => .refused (.badStatement .noParameter)
    | .error e => .refused (.badStatement e)

/-- The state with the lines a word spells, an instruction's parameter and line, as the next of the program (log 12). -/
def State.withFetchWord (s : State) (nbits w : Nat) : State :=
  { s with program := lines (textOfWord nbits w) ++ s.program }

end Sys2Proof.Machine
end

