-- ==== Sys2Proof/Safety.lean ====
section
/-! DEFINITION. The terms claims are made in: which inputs a block reads, when its ports are settled, the
invariant of the machine, and the environment's duties (R114 to R118). -/

namespace Sys2Proof.Machine

/-- The input ports an application drives, in port order: the width of each and the name connected to it
(R22 to R25). -/
def operandPorts : Instr → List (Nat × Ident)
  | .enc _ dataIn => [(dataIn.m, dataIn.name)]
  | .syn _ codewordIn => [(codewordLength codewordIn.m, codewordIn.name)]
  | .cor _ _ _ _ codewordIn syndromeIn =>
    [(codewordLength codewordIn.m, codewordIn.name), (computeRedundancy codewordIn.m, syndromeIn)]
  | .dec _ codewordIn => [(codewordLength codewordIn.m, codewordIn.name)]

/-- The names an application binds. -/
def resultNames : Instr → List Ident
  | .enc codewordOut _ => [codewordOut]
  | .syn syndrome _ => [syndrome]
  | .cor codewordOut errorPosition syndromeNonzero syndromeBeyondN _ _ =>
    [codewordOut, errorPosition, syndromeNonzero, syndromeBeyondN]
  | .dec dataOut _ => [dataOut]

/-- The value cannot drive a port of width w: a vector of another width, or a literal that does not fit (R115, R11,
log 9). -/
def Misfits (w : Nat) : Value → Prop
  | .literal n => 2 ^ w ≤ n
  | .vec v => v.width ≠ w

/-- The instance is an encoder of some width for which hardware exists, and its output is its function of its input at
that width (R14, R28). -/
def EncoderPorts.Settled (limit : WidthLimit) (p : EncoderPorts) : Prop :=
  ∃ (m : Nat) (d : BitVec m), isElaborable m limit = true ∧ p = ⟨driven d, driven (encodeWord m d)⟩

/-- The same of a syndrome generator. -/
def SyndromeGeneratorPorts.Settled (limit : WidthLimit) (p : SyndromeGeneratorPorts) : Prop :=
  ∃ (m : Nat) (c : BitVec (codewordLength m)), isElaborable m limit = true ∧
    p = ⟨driven c, driven (syndromeOf m c)⟩

/-- The same of an error corrector. -/
def ErrorCorrectorPorts.Settled (limit : WidthLimit) (p : ErrorCorrectorPorts) : Prop :=
  ∃ (m : Nat) (c : BitVec (codewordLength m)) (syn : BitVec (computeRedundancy m)), isElaborable m limit = true ∧
    p = ⟨driven c, driven syn, driven (correctedWord c syn), driven syn,
      driven (syndromeNonzeroFlag syn), driven (syndromeBeyondNFlag (codewordLength m) syn)⟩

/-- The same of a decoder. -/
def DecoderPorts.Settled (limit : WidthLimit) (p : DecoderPorts) : Prop :=
  ∃ (m : Nat) (c : BitVec (codewordLength m)), isElaborable m limit = true ∧ p = ⟨driven c, driven (decodeWord m c)⟩

/-- Each name is bound once. -/
def State.NamesUnique (s : State) : Prop := (s.values.map Prod.fst).Nodup

/-- What tells the instances of a block apart from outside: the wire its first output drives and the width of its first
input, which its M fixes (log 6). -/
def Wired.key {P : Type} (width : P → Nat) (i : Wired P) : Wire × Nat := (i.wire, width i.ports)

/-- No two of the instances drive the same wire at the same width. -/
def KeysUnique {P : Type} (width : P → Nat) (l : List (Wired P)) : Prop := (l.map (Wired.key width)).Nodup

/-- On each wire at most one instance of a block and a width. -/
structure State.WiresUnique (s : State) : Prop where
  encoders : KeysUnique EncoderPorts.inputWidth s.encoders
  syndromeGenerators : KeysUnique SyndromeGeneratorPorts.inputWidth s.syndromeGenerators
  errorCorrectors : KeysUnique ErrorCorrectorPorts.inputWidth s.errorCorrectors
  decoders : KeysUnique DecoderPorts.inputWidth s.decoders

/-- The invariant: every instance is one for whose width hardware exists (R55) and all its ports are settled (R28). Each
name is bound once, and each wire driven once (logs 6 and 10). -/
structure State.Inv (s : State) : Prop where
  encoders : ∀ i ∈ s.encoders, i.ports.Settled s.maxM
  syndromeGenerators : ∀ i ∈ s.syndromeGenerators, i.ports.Settled s.maxM
  errorCorrectors : ∀ i ∈ s.errorCorrectors, i.ports.Settled s.maxM
  decoders : ∀ i ∈ s.decoders, i.ports.Settled s.maxM
  names : s.NamesUnique
  wires : s.WiresUnique

/-- Every instance of the one list is in the other, on its wire and of its width, and with the same value on every port
unless it is one of `ks`. What the other list has beyond them comes after them. -/
structure Stay {P : Type} (width : P → Nat) (ks : List (Wire × Nat)) (l l' : List (Wired P)) : Prop where
  keys : l.map (Wired.key width) <+: l'.map (Wired.key width)
  ports : ∀ i ∈ l, i.key width ∉ ks → i ∈ l'

/-- Every instance there is in s is in t, its ports unchanged unless it is one of `ks` (R110, R102). -/
structure State.InstancesStay (ks : List (Wire × Nat)) (s t : State) : Prop where
  encoders : Stay EncoderPorts.inputWidth ks s.encoders t.encoders
  syndromeGenerators : Stay SyndromeGeneratorPorts.inputWidth ks s.syndromeGenerators t.syndromeGenerators
  errorCorrectors : Stay ErrorCorrectorPorts.inputWidth ks s.errorCorrectors t.errorCorrectors
  decoders : Stay DecoderPorts.inputWidth ks s.decoders t.decoders

/-- The same instances, whatever the order of their lists. -/
structure State.SameInstances (s t : State) : Prop where
  encoders : s.encoders.Perm t.encoders
  syndromeGenerators : s.syndromeGenerators.Perm t.syndromeGenerators
  errorCorrectors : s.errorCorrectors.Perm t.errorCorrectors
  decoders : s.decoders.Perm t.decoders

/-- The name of the wire that the first output port of an application's instance drives. -/
def outputName : Instr → Ident
  | .enc codewordOut _ => codewordOut
  | .syn syndrome _ => syndrome
  | .cor codewordOut _ _ _ _ _ => codewordOut
  | .dec dataOut _ => dataOut

/-- The width of the first input port of an application's instance. -/
def firstInputWidth : Instr → Nat
  | .enc _ dataIn => dataIn.m
  | .syn _ codewordIn => codewordLength codewordIn.m
  | .cor _ _ _ _ codewordIn _ => codewordLength codewordIn.m
  | .dec _ codewordIn => codewordLength codewordIn.m

/-- The instances a statement gives new inputs. -/
def drivenKeys : Statement → List (Wire × Nat)
  | .param _ => []
  | .literal _ _ => []
  | .channel _ _ _ _ => []
  | .block i => [(.named (outputName i), firstInputWidth i)]
  | .detcor m codewordOut _ _ _ _ => [(.inside codewordOut, codewordLength m), (.named codewordOut, codewordLength m)]
  | .blank => []

/-- The wires that instances drive. -/
def State.wires (s : State) : List Wire :=
  s.encoders.map Wired.wire ++ s.syndromeGenerators.map Wired.wire ++ s.errorCorrectors.map Wired.wire
    ++ s.decoders.map Wired.wire

/-- How many instances there are. -/
def State.instanceCount (s : State) : Nat :=
  s.encoders.length + s.syndromeGenerators.length + s.errorCorrectors.length + s.decoders.length

/-- The applications one after another. -/
def execAll : List Instr → State → StepOutcome
  | [], s => .next s
  | i :: rest, s =>
    match exec i s with
    | .next t => execAll rest t
    | o => o

/-- Neither application reads or names a result of the other: they run independently (R110). -/
def Independent (i j : Instr) : Prop :=
  (∀ n ∈ resultNames i, n ∉ j.names) ∧ (∀ n ∈ resultNames j, n ∉ i.names)

/-- The elaboration parameter a program is under: that of its first line which is not blank, if that states one
(R59). -/
def parameterOf : List Text → Option Nat
  | [] => none
  | line :: rest =>
    match decodeStatement 0 line with
    | .ok (.param m) => some m
    | .ok .blank => parameterOf rest
    | _ => none

/-- A valid codeword: an output of the encoder (R74). -/
def IsCodeword (m : Nat) (c : BitVec (codewordLength m)) : Prop := ∃ d : BitVec m, c = encodeWord m d

/-- The positions an error pattern flips, in increasing order (R77, R92). -/
def flippedPositions {n : Nat} (e : BitVec n) : List Nat := (positions n).filter fun i => bitAt e i

/-- The environment's duty at the corrector: the syndrome is that of the codeword (R116). -/
def Paired (m : Nat) (c : BitVec (codewordLength m)) (syn : BitVec (computeRedundancy m)) : Prop :=
  syn = syndromeOf m c

end Sys2Proof.Machine
end

