-- ==== Sys2Proof/Certificates/Slice0/Obligations.lean ====
section
/-! DEFINITION. The statements for the provers. Each docstring names the rule of spec/ it formalises, or says
what of it is the spec's own inference or the model's choice. -/

open Sys2Proof Sys2Proof.Machine

/-! ## Sizes and positions -/

/-- R43: `computeRedundancy(m)` is the smallest r with 2^r ≥ m + r + 1, for every m; its loop ends; 0 gives 0. -/
def Obligations.ComputeRedundancyIsSmallest : Prop :=
  (∀ m, m + computeRedundancy m + 1 ≤ 2 ^ computeRedundancy m) ∧
  (∀ m r, m + r + 1 ≤ 2 ^ r → computeRedundancy m ≤ r) ∧
  computeRedundancy 0 = 0

/-- The closed form the spec infers in R44 ("2^(R-1) < N < 2^R, so R = floor_log2(N) + 1"; no M ≥ 1 gives R below
2; the interval of m for each r). -/
def Obligations.RedundancyClosedForm : Prop :=
  ∀ m, 1 ≤ m →
    (∀ r, computeRedundancy m = r ↔ 2 ^ (r - 1) + 1 ≤ m + r ∧ m + r + 1 ≤ 2 ^ r) ∧
    2 ^ (computeRedundancy m - 1) < codewordLength m ∧
    codewordLength m < 2 ^ computeRedundancy m ∧
    computeRedundancy m = floorLog2 (codewordLength m) + 1 ∧
    2 ≤ computeRedundancy m

/-- Which codeword lengths exist, as the spec infers in R48: a length n ≥ 1 exists exactly when it is no power of
two, and then r = floor_log2(n) + 1; the length of every m gives back its own r. -/
def Obligations.InferredRedundancyOfLength : Prop :=
  (∀ n, 1 ≤ n → inferRedundancy n = if isPow2 n then none else some (floorLog2 n + 1)) ∧
  (∀ m, inferRedundancy (codewordLength m) = some (computeRedundancy m)) ∧
  (∀ n, isPow2 n = true ↔ ∃ k, n = 2 ^ k)

/-- An instantiator given n (R55 rows 1 to 3): a power of two is refused as `InvalidCodewordLength`, any other
n ≥ 1 gives M = n - floor_log2(n) - 1 unless that exceeds M_MAX. That this M is the one whose length is n is the
spec's inference in R48 (30_encoding.md section 1). That n = 0 reports `ZeroDataWidth` is the model's reading of R106
(log 14). -/
def Obligations.LengthElaboration : Prop :=
  ∀ (n : Nat) (limit : WidthLimit),
    (n = 0 → widthOfLength n limit = .error (.zeroDataWidth 0)) ∧
    (isPow2 n = true → widthOfLength n limit = .error (.invalidCodewordLength n)) ∧
    (1 ≤ n → isPow2 n = false → (∀ l, limit = some l → n - floorLog2 n - 1 ≤ l) →
      widthOfLength n limit = .ok (n - floorLog2 n - 1) ∧ codewordLength (n - floorLog2 n - 1) = n) ∧
    (1 ≤ n → isPow2 n = false → (∃ l, limit = some l ∧ l < n - floorLog2 n - 1) →
      widthOfLength n limit = .error (.dataWidthTooLarge (n - floorLog2 n - 1)))

/-- The parity positions of a codeword are exactly 2^k for k in 0..R-1, as the spec infers in R49. -/
def Obligations.ParityPositionsArePowers : Prop :=
  ∀ m, 1 ≤ m →
    (positions (codewordLength m)).filter isPow2 = (List.range (computeRedundancy m)).map (2 ^ ·)

/-- The data positions (R50): dpos is increasing, its values are data positions, and it and didx, whose formula the
spec infers, are inverse to each other. -/
def Obligations.DataPositionMapsAreInverse : Prop :=
  ∀ m, 1 ≤ m →
    (∀ j, 1 ≤ j → j ≤ m →
      1 ≤ dpos (codewordLength m) j ∧ dpos (codewordLength m) j ≤ codewordLength m ∧
      isPow2 (dpos (codewordLength m) j) = false ∧ didx (dpos (codewordLength m) j) = j) ∧
    (∀ i, 1 ≤ i → i ≤ codewordLength m → isPow2 i = false →
      1 ≤ didx i ∧ didx i ≤ m ∧ dpos (codewordLength m) (didx i) = i) ∧
    (∀ j j', 1 ≤ j → j < j' → j' ≤ m → dpos (codewordLength m) j < dpos (codewordLength m) j')

/-! ## Coverage groups and the parity computer -/

/-- R60 and R61: group k is the set of positions whose binary representation has bit k; every position of a codeword
is in some group below R, and two different positions are in different sets of groups. -/
def Obligations.GroupsAreBinaryDigits : Prop :=
  (∀ n k i, i ∈ coverageGroup n k ↔ 1 ≤ i ∧ i ≤ n ∧ i.testBit k = true) ∧
  (∀ m i, 1 ≤ m → 1 ≤ i → i ≤ codewordLength m → ∃ k, k < computeRedundancy m ∧ inGroup i k = true) ∧
  (∀ m i j, 1 ≤ m → 1 ≤ i → i ≤ codewordLength m → 1 ≤ j → j ≤ codewordLength m → i ≠ j →
    ∃ k, k < computeRedundancy m ∧ inGroup i k ≠ inGroup j k)

/-- R63 with R66: the parity of group k is 1 exactly when an odd number of the group's positions, the position 2^k
included, hold a 1. -/
def Obligations.GroupParityCountsOnes : Prop :=
  ∀ (n : Nat) (v : BitVec n) (k : Nat),
    groupParity v k = decide (((coverageGroup n k).filter fun i => bitAt v i).length % 2 = 1)

/-- The linearity of group parity the spec infers in R65, and its value on a one-hot vector. -/
def Obligations.GroupParityIsLinear : Prop :=
  ∀ (n k : Nat),
    (∀ a b : BitVec n, groupParity (a ^^^ b) k = Bool.xor (groupParity a k) (groupParity b k)) ∧
    groupParity (0#n) k = false ∧
    (∀ p, 1 ≤ p → p ≤ n → groupParity (oneHot n p) k = p.testBit k)

/-- R64: each parity position 2^k is overwritten with the XOR of its group, every other position is copied, and
writing the R parities one after another, in any order, each from the vector as currently stored, gives the same
result. -/
def Obligations.ApplyParityInAnyOrder : Prop :=
  ∀ m, 1 ≤ m → ∀ v : BitVec (codewordLength m),
    (∀ k, k < computeRedundancy m → bitAt (applyParity v) (2 ^ k) = groupParity v k) ∧
    (∀ i, 1 ≤ i → i ≤ codewordLength m → isPow2 i = false → bitAt (applyParity v) i = bitAt v i) ∧
    (∀ ks : List Nat, ks.Perm (List.range (computeRedundancy m)) → ks.foldl setParity v = applyParity v)

/-! ## The encoder -/

/-- R69: the layout loop puts a placeholder 0 at every power of two and each data bit once, in order, at the other
positions. The closed form by didx and where the cursors end (pw = 2^R, j = M + 1) are the spec's inferences. -/
def Obligations.LayoutPlacesEveryDataBit : Prop :=
  ∀ m, 1 ≤ m → ∀ d : BitVec m,
    (∀ i, 1 ≤ i → i ≤ codewordLength m → isPow2 i = true → bitAt (layout m d) i = false) ∧
    (∀ i, 1 ≤ i → i ≤ codewordLength m → isPow2 i = false → bitAt (layout m d) i = bitAt d (didx i)) ∧
    (∀ j, 1 ≤ j → j ≤ m →
      ∃! i, (1 ≤ i ∧ i ≤ codewordLength m ∧ isPow2 i = false) ∧ didx i = j) ∧
    (layoutLoop m d).2 = (2 ^ computeRedundancy m, m + 1)

/-- ENC completes, and R70: each parity position 2^k of the output receives the parity of group k of the skeleton,
each data position keeps its data bit, and the placeholder contributes 0. The output stands on the port and under
the result's name. -/
def Obligations.EncSetsParity : Prop :=
  ∀ (s : State) (m : Nat) (dst src : Ident) (d : BitVec m),
    isElaborable m s.maxM = true → s.readInput m src = .ok d →
    ∃ (t : State) (c : BitVec (codewordLength m)), exec (.enc dst ⟨m, src⟩) s = .next t ∧
      (∃ x ∈ t.encoders, x.ports = ⟨driven d, driven c⟩) ∧
      lookupIn dst t.values = some (.vec ⟨codewordLength m, c⟩) ∧
      (∀ k, k < computeRedundancy m → bitAt c (2 ^ k) = groupParity (layout m d) k) ∧
      (∀ i, 1 ≤ i → i ≤ codewordLength m → isPow2 i = false → bitAt c i = bitAt (layout m d) i) ∧
      (∀ k, bitAt (layout m d) (2 ^ k) = false)

/-- The closed form of the encoder the spec infers in R71: a data position holds its data bit; the parity position
2^k holds the XOR of the data positions of group k. -/
def Obligations.EncodeClosedForm : Prop :=
  ∀ m, 1 ≤ m → ∀ d : BitVec m,
    (∀ i, 1 ≤ i → i ≤ codewordLength m → isPow2 i = false →
      bitAt (encodeWord m d) i = bitAt d (didx i)) ∧
    (∀ k, k < computeRedundancy m →
      bitAt (encodeWord m d) (2 ^ k) =
        xorOver (codewordLength m) fun i => !isPow2 i && inGroup i k && bitAt d (didx i))

/-- Every encoder output has even parity in every group, so syndrome 0: the inference of R73. -/
def Obligations.EncodedWordsHaveEvenParity : Prop :=
  ∀ m, 1 ≤ m → ∀ d : BitVec m,
    (∀ k, k < computeRedundancy m → groupParity (encodeWord m d) k = false) ∧
    syndromeOf m (encodeWord m d) = 0#(computeRedundancy m)

/-- ENC is linear and injective: the inference of R74. -/
def Obligations.EncodeIsLinearAndInjective : Prop :=
  ∀ m, 1 ≤ m →
    encodeWord m (0#m) = 0#(codewordLength m) ∧
    (∀ a b : BitVec m, encodeWord m (a ^^^ b) = encodeWord m a ^^^ encodeWord m b) ∧
    (∀ a b : BitVec m, encodeWord m a = encodeWord m b → a = b)

/-- The valid codewords are exactly the vectors of syndrome 0, and such a vector is ENC of its own data positions:
the inference of R74 (90_conflicts.md C8). -/
def Obligations.CodewordsAreZeroSyndromes : Prop :=
  ∀ m, 1 ≤ m → ∀ c : BitVec (codewordLength m),
    (syndromeOf m c = 0#(computeRedundancy m) ↔ IsCodeword m c) ∧
    (IsCodeword m c → c = encodeWord m (decodeWord m c))

/-! ## The syndrome generator -/

/-- SYN completes (R75): bit k of the syndrome is the observed parity of group k, its integer value is the sum of
check k times 2^k, and it stands on the port and under the result's name. -/
def Obligations.SynReportsEveryCheck : Prop :=
  ∀ (s : State) (m : Nat) (dst src : Ident) (c : BitVec (codewordLength m)),
    isElaborable m s.maxM = true → s.readInput (codewordLength m) src = .ok c →
    ∃ (t : State) (syn : BitVec (computeRedundancy m)), exec (.syn dst ⟨m, src⟩) s = .next t ∧
      (∃ x ∈ t.syndromeGenerators, x.ports = ⟨driven c, driven syn⟩) ∧
      lookupIn dst t.values = some (.vec ⟨computeRedundancy m, syn⟩) ∧
      (∀ k, k < computeRedundancy m → syn.getLsbD k = groupParity c k) ∧
      syn.toNat = ((List.range (computeRedundancy m)).map fun k => (groupParity c k).toNat * 2 ^ k).sum

/-- The syndrome is the XOR of the numbers of the positions that hold a 1: the inference of R76. -/
def Obligations.SyndromeIsXorOfPositions : Prop :=
  ∀ m, 1 ≤ m → ∀ c : BitVec (codewordLength m),
    (syndromeOf m c).toNat = (flippedPositions c).foldl (· ^^^ ·) 0

/-- The syndrome sees only the error, whatever the data word: the inference of R77. -/
def Obligations.SyndromeSeesOnlyTheError : Prop :=
  ∀ m, 1 ≤ m → ∀ (d : BitVec m) (e : BitVec (codewordLength m)),
    syndromeOf m (encodeWord m d ^^^ e) = syndromeOf m e

/-- Two errors (R79, inferred): the syndrome is the XOR of the two positions, so it is never 0 and names neither of
them. -/
def Obligations.TwoErrorsNameNeitherPosition : Prop :=
  ∀ m, 1 ≤ m → ∀ (d : BitVec m) (p q : Nat),
    1 ≤ p → p ≤ codewordLength m → 1 ≤ q → q ≤ codewordLength m → p ≠ q →
    (syndromeOf m (encodeWord m d ^^^ oneHot _ p ^^^ oneHot _ q)).toNat = p ^^^ q ∧
    p ^^^ q ≠ 0 ∧ p ^^^ q ≠ p ∧ p ^^^ q ≠ q

/-! ## The error corrector -/

/-- COR completes for every codeword and every syndrome, whether or not the syndrome is that of the codeword (R86),
with the outputs of R81 (s = 0), R82 (1 ≤ s ≤ N) and R83 (N < s). The outputs stand on the ports, and under the
results' names where these are four. -/
def Obligations.CorThreeCases : Prop :=
  ∀ (s : State) (m : Nat) (n1 n2 n3 n4 srcC srcS : Ident) (c : BitVec (codewordLength m))
    (syn : BitVec (computeRedundancy m)),
    isElaborable m s.maxM = true → s.readInput (codewordLength m) srcC = .ok c →
    s.readInput (computeRedundancy m) srcS = .ok syn →
    ∃ (t : State) (c' : BitVec (codewordLength m)) (nz bn : BitVec 1),
      exec (.cor n1 n2 n3 n4 ⟨m, srcC⟩ srcS) s = .next t ∧
      (∃ x ∈ t.errorCorrectors,
        x.ports = ⟨driven c, driven syn, driven c', driven syn, driven nz, driven bn⟩) ∧
      ([n1, n2, n3, n4].Nodup →
        lookupIn n1 t.values = some (.vec ⟨codewordLength m, c'⟩) ∧
        lookupIn n2 t.values = some (.vec ⟨computeRedundancy m, syn⟩) ∧
        lookupIn n3 t.values = some (.vec ⟨1, nz⟩) ∧ lookupIn n4 t.values = some (.vec ⟨1, bn⟩)) ∧
      (syn.toNat = 0 → c' = c ∧ nz = 0#1 ∧ bn = 0#1) ∧
      (1 ≤ syn.toNat → syn.toNat ≤ codewordLength m →
        c' = c ^^^ (1#(codewordLength m) <<< (syn.toNat - 1)) ∧
        (∀ i, 1 ≤ i → i ≤ codewordLength m → (bitAt c' i ≠ bitAt c i ↔ i = syn.toNat)) ∧
        nz = 1#1 ∧ bn = 0#1) ∧
      (codewordLength m < syn.toNat → c' = c ∧ nz = 1#1 ∧ bn = 1#1)

/-- R102, over every state that meets the invariant: the two flags on the ports of every error corrector encode the three
ranges of the syndrome on its `error_position`, at a width m for which hardware exists, and `syndrome_nonzero` = 0 with
`syndrome_beyond_n` = 1 cannot occur. -/
def Obligations.CorrectorStatusTable : Prop :=
  ∀ s : State, s.Inv → ∀ x ∈ s.errorCorrectors,
    ∃ m, isElaborable m s.maxM = true ∧ x.ports.codewordIn.width = codewordLength m ∧
      x.ports.errorPosition.width = computeRedundancy m ∧ x.ports.syndromeIn = x.ports.errorPosition ∧
      ((x.ports.syndromeNonzero.bits.toNat = 0 ∧ x.ports.syndromeBeyondN.bits.toNat = 0 ∧ x.ports.errorPosition.bits.toNat = 0 ∧
          x.ports.codewordOut = x.ports.codewordIn) ∨
       (x.ports.syndromeNonzero.bits.toNat = 1 ∧ x.ports.syndromeBeyondN.bits.toNat = 0 ∧ 1 ≤ x.ports.errorPosition.bits.toNat ∧
          x.ports.errorPosition.bits.toNat ≤ codewordLength m ∧ x.ports.codewordOut ≠ x.ports.codewordIn) ∨
       (x.ports.syndromeNonzero.bits.toNat = 1 ∧ x.ports.syndromeBeyondN.bits.toNat = 1 ∧
          codewordLength m + 1 ≤ x.ports.errorPosition.bits.toNat ∧
          x.ports.errorPosition.bits.toNat + 1 ≤ 2 ^ computeRedundancy m ∧ x.ports.codewordOut = x.ports.codewordIn))

/-- What the corrector gives when its syndrome is that of its codeword (R116), as the spec infers in R85: a valid
codeword when s ≤ N, and an unchanged vector that is no codeword when s > N. -/
def Obligations.PairedCorrectionIsValid : Prop :=
  ∀ m, 1 ≤ m → ∀ (c : BitVec (codewordLength m)) (syn : BitVec (computeRedundancy m)), Paired m c syn →
    (syn.toNat ≤ codewordLength m → IsCodeword m (correctedWord c syn)) ∧
    (codewordLength m < syn.toNat → correctedWord c syn = c ∧ ¬ IsCodeword m c)

/-! ## The decoder -/

/-- DEC completes (R87): data bit j is the bit at the j-th data position, on the port and under the result's name. -/
def Obligations.DecReadsDataPositions : Prop :=
  ∀ (s : State) (m : Nat) (dst src : Ident) (c : BitVec (codewordLength m)),
    isElaborable m s.maxM = true → s.readInput (codewordLength m) src = .ok c →
    ∃ (t : State) (d : BitVec m), exec (.dec dst ⟨m, src⟩) s = .next t ∧
      (∃ x ∈ t.decoders, x.ports = ⟨driven c, driven d⟩) ∧ lookupIn dst t.values = some (.vec ⟨m, d⟩) ∧
      (∀ j, 1 ≤ j → j ≤ m → bitAt d j = bitAt c (dpos (codewordLength m) j)) ∧
      (∀ i, 1 ≤ i → i ≤ codewordLength m → isPow2 i = false → bitAt d (didx i) = bitAt c i)

/-- R88: the decoder does not detect errors. On a codeword with data position j corrupted it completes and data bit j
comes out inverted, every other bit as it was. -/
def Obligations.DecPassesErrorsThrough : Prop :=
  ∀ (s : State) (m : Nat) (dst src : Ident) (c : BitVec (codewordLength m)) (j : Nat),
    isElaborable m s.maxM = true → 1 ≤ j → j ≤ m →
    s.readInput (codewordLength m) src = .ok (c ^^^ oneHot (codewordLength m) (dpos (codewordLength m) j)) →
    ∃ t : State, exec (.dec dst ⟨m, src⟩) s = .next t ∧
      ∃ x ∈ t.decoders, x.ports.codewordIn = driven (c ^^^ oneHot (codewordLength m) (dpos (codewordLength m) j)) ∧
        x.ports.dataOut = driven (decodeWord m c ^^^ oneHot m j)

/-- The decoder's output depends only on the data positions: the inference of R89. -/
def Obligations.DecodeIgnoresParityPositions : Prop :=
  ∀ m, 1 ≤ m → ∀ c c' : BitVec (codewordLength m),
    (∀ i, 1 ≤ i → i ≤ codewordLength m → isPow2 i = false → bitAt c i = bitAt c' i) →
    decodeWord m c = decodeWord m c'

/-- Decoding an encoded data word gives it back (R90, inferred; the source's round-trip property). -/
def Obligations.DecodeOfEncodeIsIdentity : Prop :=
  ∀ m, 1 ≤ m → ∀ d : BitVec m, decodeWord m (encodeWord m d) = d

/-! ## The composition -/

/-- R91: DETCOR is SYN followed by COR on the same codeword. It completes where the two do, and leaves every encoder,
corrector and decoder, the program and every name but the one the syndrome is given between the two as they leave them.
Its syndrome generator has the ports that of SYN has, on the unnamed wire inside DETCOR (that this is another wire than
the named one is the model's choice, logs 6 and 18). -/
def Obligations.DetcorIsSynThenCor : Prop :=
  ∀ (s : State) (m : Nat) (n1 n2 n3 n4 src x : Ident) (c : BitVec (codewordLength m)),
    isElaborable m s.maxM = true → s.readInput (codewordLength m) src = .ok c → x ≠ src →
    ∃ (s1 s2 t : State) (p : SyndromeGeneratorPorts),
      exec (.syn x ⟨m, src⟩) s = .next s1 ∧ exec (.cor n1 n2 n3 n4 ⟨m, src⟩ x) s1 = .next s2 ∧
      runStatement (.detcor m n1 n2 n3 n4 src) s = .next t ∧
      t.encoders = s2.encoders ∧ t.errorCorrectors = s2.errorCorrectors ∧ t.decoders = s2.decoders ∧
      t.syndromeGenerators = settleOn SyndromeGeneratorPorts.inputWidth (.inside n1) p s.syndromeGenerators ∧
      s2.syndromeGenerators = settleOn SyndromeGeneratorPorts.inputWidth (.named x) p s.syndromeGenerators ∧
      t.program = s2.program ∧ t.maxM = s2.maxM ∧
      (∀ n, n ≠ x → lookupIn n t.values = lookupIn n s2.values)

/-- R94: for every M, every data word d and every position p, DETCOR of ENC(d) with position p flipped reports p and
gives ENC(d) back, which decodes to d. The flags nz = 1 and bn = 0 are the spec's inference from R82. The premise
is the at-most-one-error assumption (R118). -/
def Obligations.SingleErrorIsCorrected : Prop :=
  ∀ (s : State) (m : Nat) (n1 n2 n3 n4 src : Ident) (d : BitVec m) (p : Nat),
    isElaborable m s.maxM = true → 1 ≤ p → p ≤ codewordLength m →
    s.readInput (codewordLength m) src = .ok (encodeWord m d ^^^ oneHot (codewordLength m) p) →
    ∃ t : State, runStatement (.detcor m n1 n2 n3 n4 src) s = .next t ∧
      (∃ x ∈ t.errorCorrectors, x.ports =
        { codewordIn := driven (encodeWord m d ^^^ oneHot (codewordLength m) p)
          syndromeIn := driven (BitVec.ofNat (computeRedundancy m) p)
          codewordOut := driven (encodeWord m d)
          errorPosition := driven (BitVec.ofNat (computeRedundancy m) p)
          syndromeNonzero := driven (1#1)
          syndromeBeyondN := driven (0#1) }) ∧
      (BitVec.ofNat (computeRedundancy m) p).toNat = p ∧
      decodeWord m (encodeWord m d) = d

/-- R95: DETCOR of an uncorrupted codeword gives it back with position 0 and both flags 0. That DETCOR of its own
corrected output does so too, when the first syndrome was at most N, is the spec's inference. -/
def Obligations.NoErrorIsIdempotent : Prop :=
  (∀ (s : State) (m : Nat) (n1 n2 n3 n4 src : Ident) (d : BitVec m),
    isElaborable m s.maxM = true → s.readInput (codewordLength m) src = .ok (encodeWord m d) →
    ∃ t : State, runStatement (.detcor m n1 n2 n3 n4 src) s = .next t ∧
      ∃ x ∈ t.errorCorrectors, x.ports =
        { codewordIn := driven (encodeWord m d)
          syndromeIn := driven (0#(computeRedundancy m))
          codewordOut := driven (encodeWord m d)
          errorPosition := driven (0#(computeRedundancy m))
          syndromeNonzero := driven (0#1)
          syndromeBeyondN := driven (0#1) }) ∧
  (∀ m, 1 ≤ m → ∀ c : BitVec (codewordLength m), (syndromeOf m c).toNat ≤ codewordLength m →
    syndromeOf m (correctedWord c (syndromeOf m c)) = 0#(computeRedundancy m) ∧
    correctedWord (correctedWord c (syndromeOf m c))
      (syndromeOf m (correctedWord c (syndromeOf m c))) = correctedWord c (syndromeOf m c))

/-- R96: for every error pattern, of two or more bits too, DETCOR completes and reports the XOR of the flipped
positions, in 0..2^R - 1; what its four outputs give follows R80 from that position, with no guarantee that it is the
original. -/
def Obligations.AnyErrorPatternGivesDefinedOutputs : Prop :=
  ∀ (s : State) (m : Nat) (n1 n2 n3 n4 src : Ident) (d : BitVec m) (e : BitVec (codewordLength m)),
    isElaborable m s.maxM = true → s.readInput (codewordLength m) src = .ok (encodeWord m d ^^^ e) →
    ∃ (t : State) (pos : BitVec (computeRedundancy m)) (c : BitVec (codewordLength m)) (nz bn : BitVec 1),
      runStatement (.detcor m n1 n2 n3 n4 src) s = .next t ∧
      (∃ x ∈ t.errorCorrectors, x.ports =
        ⟨driven (encodeWord m d ^^^ e), driven pos, driven c, driven pos, driven nz, driven bn⟩) ∧
      pos.toNat = (flippedPositions e).foldl (· ^^^ ·) 0 ∧ pos.toNat < 2 ^ computeRedundancy m ∧
      (∀ i, 1 ≤ i → i ≤ codewordLength m →
        bitAt c i = Bool.xor (bitAt (encodeWord m d ^^^ e) i) (pos.toNat == i)) ∧
      (nz = 1#1 ↔ pos.toNat ≠ 0) ∧ (bn = 1#1 ↔ codewordLength m < pos.toNat)

/-! ## What stops a block, and what it leaves alone -/

/-- R99: for every value of its inputs every block produces defined outputs; no block refuses an input value. Where
hardware exists and every input port is driven at its width, an application completes, and some instance of the block has
these inputs and a value of the port's width on every output port (R22 to R25). -/
def Obligations.EveryDrivenBlockCompletes : Prop :=
  ∀ (s : State) (i : Instr), isElaborable i.width s.maxM = true →
    (∀ p ∈ operandPorts i, ∃ b : BitVec p.1, s.readInput p.1 p.2 = .ok b) →
    ∃ t : State, exec i s = .next t ∧
      (match i with
       | .enc _ src => ∃ x ∈ t.encoders, (∀ d, s.readInput src.m src.name = .ok d → x.ports.dataIn = driven d) ∧
         x.ports.codewordOut.width = codewordLength src.m
       | .syn _ src => ∃ x ∈ t.syndromeGenerators,
         (∀ c, s.readInput (codewordLength src.m) src.name = .ok c → x.ports.codewordIn = driven c) ∧
         x.ports.syndrome.width = computeRedundancy src.m
       | .cor _ _ _ _ src srcS => ∃ x ∈ t.errorCorrectors,
         (∀ c, s.readInput (codewordLength src.m) src.name = .ok c → x.ports.codewordIn = driven c) ∧
         (∀ syn, s.readInput (computeRedundancy src.m) srcS = .ok syn → x.ports.syndromeIn = driven syn) ∧
         x.ports.codewordOut.width = codewordLength src.m ∧ x.ports.errorPosition.width = computeRedundancy src.m ∧
         x.ports.syndromeNonzero.width = 1 ∧ x.ports.syndromeBeyondN.width = 1
       | .dec _ src => ∃ x ∈ t.decoders,
         (∀ c, s.readInput (codewordLength src.m) src.name = .ok c → x.ports.codewordIn = driven c) ∧
         x.ports.dataOut.width = src.m)

/-- No hardware exists for M = 0 or M above M_MAX (R55): every application of such a block, and DETCOR, is refused with
the reason that R100 names, `ZeroDataWidth` first (R106). -/
def Obligations.NoHardwareNoEvaluation : Prop :=
  ∀ (s : State) (m : Nat),
    (m = 0 →
      (∀ i : Instr, i.width = m → exec i s = .refused (.zeroDataWidth 0)) ∧
      (∀ a b c d e, runStatement (.detcor m a b c d e) s = .refused (.zeroDataWidth 0))) ∧
    (∀ l, s.maxM = some l → l < m →
      (∀ i : Instr, i.width = m → exec i s = .refused (.dataWidthTooLarge m)) ∧
      (∀ a b c d e, runStatement (.detcor m a b c d e) s = .refused (.dataWidthTooLarge m)))

/-- `param M = m` (R55, R114): `ZeroDataWidth` for 0, `DataWidthTooLarge` above M_MAX, else the blocks of what follows are
of that width: none of them is driven yet (R113), and every instance there is stays (R110). That the named values and
the rest of the program stay is the model's choice (log 7). -/
def Obligations.ParamElaborates : Prop :=
  ∀ (s : State) (m : Nat),
    (m = 0 → runStatement (.param m) s = .refused (.zeroDataWidth 0)) ∧
    (∀ l, s.maxM = some l → l < m → runStatement (.param m) s = .refused (.dataWidthTooLarge m)) ∧
    (1 ≤ m → (∀ l, s.maxM = some l → m ≤ l) →
      ∃ t : State, runStatement (.param m) s = .next t ∧
        t.encoders = s.encoders ∧ t.syndromeGenerators = s.syndromeGenerators ∧
        t.errorCorrectors = s.errorCorrectors ∧ t.decoders = s.decoders ∧
        t.values = s.values ∧ t.program = s.program ∧ t.maxM = s.maxM)

/-- R115: N increases strictly with M, and a connection of the wrong width is refused: any value that does not fit an
input port of a block, of DETCOR or of the channel, be it a vector of any other width or a literal that is too large
(log 9: what the refusal records, and that a literal is never truncated). That a mismatched codeword of COR is refused
before its syndrome is read, and the left side of an XOR before its right one, is log 19's order; the width in which XOR
works is log 13's. -/
def Obligations.MismatchedPipelinesAreRefused : Prop :=
  (∀ m m', m < m' → codewordLength m < codewordLength m') ∧
  (∀ (w w' n : Nat) (b : BitVec w'),
    (Misfits w (.vec ⟨w', b⟩) ↔ w' ≠ w) ∧ (Misfits w (.literal n) ↔ 2 ^ w ≤ n)) ∧
  (∀ (s : State) (m : Nat) (dst src : Ident) (v : Value),
    isElaborable m s.maxM = true → lookupIn src s.values = some v → Misfits m v →
    exec (.enc dst ⟨m, src⟩) s = .refused (.widthMismatch m v)) ∧
  (∀ (s : State) (m : Nat) (src : Ident) (v : Value),
    isElaborable m s.maxM = true → lookupIn src s.values = some v → Misfits (codewordLength m) v →
    (∀ dst, exec (.syn dst ⟨m, src⟩) s = .refused (.widthMismatch (codewordLength m) v)) ∧
    (∀ dst, exec (.dec dst ⟨m, src⟩) s = .refused (.widthMismatch (codewordLength m) v)) ∧
    (∀ n1 n2 n3 n4 srcS,
      exec (.cor n1 n2 n3 n4 ⟨m, src⟩ srcS) s = .refused (.widthMismatch (codewordLength m) v)) ∧
    (∀ n1 n2 n3 n4,
      runStatement (.detcor m n1 n2 n3 n4 src) s = .refused (.widthMismatch (codewordLength m) v))) ∧
  (∀ (s : State) (m : Nat) (n1 n2 n3 n4 srcC srcS : Ident) (c : BitVec (codewordLength m)) (v : Value),
    isElaborable m s.maxM = true → s.readInput (codewordLength m) srcC = .ok c →
    lookupIn srcS s.values = some v → Misfits (computeRedundancy m) v →
    exec (.cor n1 n2 n3 n4 ⟨m, srcC⟩ srcS) s = .refused (.widthMismatch (computeRedundancy m) v)) ∧
  (∀ (s : State) (m : Nat) (dst src : Ident) (e : Operand) (a b : Value),
    lookupIn src s.values = some a → s.readOperand e = .ok b →
    (Misfits (xorWidth (codewordLength m) a b) a →
      runStatement (.channel m dst src e) s = .refused (.widthMismatch (xorWidth (codewordLength m) a b) a)) ∧
    (¬ Misfits (xorWidth (codewordLength m) a b) a → Misfits (xorWidth (codewordLength m) a b) b →
      runStatement (.channel m dst src e) s = .refused (.widthMismatch (xorWidth (codewordLength m) a b) b)))

/-- There is no evaluation with an undriven input (R29; 93_implementation_defined.md row 6): an application one of whose
operands names no value does not complete, and where it has one operand it is refused as undriven. So are DETCOR of a
name with no value, and the channel, its left operand first (log 8). -/
def Obligations.UndrivenInputIsRefused : Prop :=
  (∀ (s : State) (i : Instr), isElaborable i.width s.maxM = true →
    ∀ p ∈ operandPorts i, lookupIn p.2 s.values = none →
      (∀ t, exec i s ≠ .next t) ∧
      (operandPorts i = [p] → exec i s = .refused (.undrivenInput p.2))) ∧
  (∀ (s : State) (m : Nat) (n1 n2 n3 n4 src : Ident), isElaborable m s.maxM = true →
    lookupIn src s.values = none → runStatement (.detcor m n1 n2 n3 n4 src) s = .refused (.undrivenInput src)) ∧
  (∀ (s : State) (m : Nat) (dst src : Ident) (e : Operand), lookupIn src s.values = none →
    runStatement (.channel m dst src e) s = .refused (.undrivenInput src)) ∧
  (∀ (s : State) (m : Nat) (dst src n : Ident) (a : Value), lookupIn src s.values = some a →
    lookupIn n s.values = none → runStatement (.channel m dst src (.name n)) s = .refused (.undrivenInput n))

/-- What ENC, SYN and DEC leave alone: every instance of every other block, every instance of their own block but the one
of that M on the result's wire, the program, the tool's limit, and every named value but the result's. That this instance
is the one that is given the inputs is the model's choice (log 6). -/
def Obligations.SingleResultBlocksFrame : Prop :=
  (∀ (s t : State) (m : Nat) (dst src : Ident), exec (.enc dst ⟨m, src⟩) s = .next t →
    Stay EncoderPorts.inputWidth [(.named dst, m)] s.encoders t.encoders ∧
    t.syndromeGenerators = s.syndromeGenerators ∧ t.errorCorrectors = s.errorCorrectors ∧
    t.decoders = s.decoders ∧ t.program = s.program ∧ t.maxM = s.maxM ∧
    ∀ n, n ≠ dst → lookupIn n t.values = lookupIn n s.values) ∧
  (∀ (s t : State) (m : Nat) (dst src : Ident), exec (.syn dst ⟨m, src⟩) s = .next t →
    Stay SyndromeGeneratorPorts.inputWidth [(.named dst, codewordLength m)] s.syndromeGenerators t.syndromeGenerators ∧
    t.encoders = s.encoders ∧ t.errorCorrectors = s.errorCorrectors ∧
    t.decoders = s.decoders ∧ t.program = s.program ∧ t.maxM = s.maxM ∧
    ∀ n, n ≠ dst → lookupIn n t.values = lookupIn n s.values) ∧
  (∀ (s t : State) (m : Nat) (dst src : Ident), exec (.dec dst ⟨m, src⟩) s = .next t →
    Stay DecoderPorts.inputWidth [(.named dst, codewordLength m)] s.decoders t.decoders ∧
    t.encoders = s.encoders ∧ t.syndromeGenerators = s.syndromeGenerators ∧
    t.errorCorrectors = s.errorCorrectors ∧ t.program = s.program ∧ t.maxM = s.maxM ∧
    ∀ n, n ≠ dst → lookupIn n t.values = lookupIn n s.values)

/-- What COR leaves alone: every instance of every other block, every error corrector but the one of that M on the wire of
`codeword_out`, the program, the tool's limit, and every named value but the four results'. That this corrector is the
one that is given the inputs is the model's choice (log 6). -/
def Obligations.CorFrame : Prop :=
  ∀ (s t : State) (m : Nat) (n1 n2 n3 n4 srcC srcS : Ident), exec (.cor n1 n2 n3 n4 ⟨m, srcC⟩ srcS) s = .next t →
    Stay ErrorCorrectorPorts.inputWidth [(.named n1, codewordLength m)] s.errorCorrectors t.errorCorrectors ∧
    t.encoders = s.encoders ∧ t.syndromeGenerators = s.syndromeGenerators ∧
    t.decoders = s.decoders ∧ t.program = s.program ∧ t.maxM = s.maxM ∧
    ∀ n, n ∉ [n1, n2, n3, n4] → lookupIn n t.values = lookupIn n s.values

/-- R26: two evaluations of a block with the same inputs give the same outputs, whatever happened before. From any two
states whose operands carry the same vectors, an application leaves its results and the ports of the instance that
settles the same, whatever was on those ports, the other instances, the other values, the program and the tool's limit
were. That this instance is the one on the first result's wire is the model's choice (log 6). -/
def Obligations.EvaluationsForgetHistory : Prop :=
  ∀ (s s' t t' : State) (i : Instr),
    (∀ p ∈ operandPorts i, s.readInput p.1 p.2 = s'.readInput p.1 p.2) →
    exec i s = .next t → exec i s' = .next t' →
    (∀ n ∈ resultNames i, lookupIn n t.values = lookupIn n t'.values) ∧
    (match i with
     | .enc dst _ => ∃ p, t.encoders = settleOn EncoderPorts.inputWidth (.named dst) p s.encoders ∧
       t'.encoders = settleOn EncoderPorts.inputWidth (.named dst) p s'.encoders
     | .syn dst _ => ∃ p, t.syndromeGenerators = settleOn SyndromeGeneratorPorts.inputWidth (.named dst) p s.syndromeGenerators ∧
       t'.syndromeGenerators = settleOn SyndromeGeneratorPorts.inputWidth (.named dst) p s'.syndromeGenerators
     | .cor dst _ _ _ _ _ => ∃ p, t.errorCorrectors = settleOn ErrorCorrectorPorts.inputWidth (.named dst) p s.errorCorrectors ∧
       t'.errorCorrectors = settleOn ErrorCorrectorPorts.inputWidth (.named dst) p s'.errorCorrectors
     | .dec dst _ => ∃ p, t.decoders = settleOn DecoderPorts.inputWidth (.named dst) p s.decoders ∧
       t'.decoders = settleOn DecoderPorts.inputWidth (.named dst) p s'.decoders)

/-- R20 and R41: the parameter M cannot change while the hardware exists. The parameter a program is under changes in a
step only where its next line is a `param` statement, an elaboration anew (log 7), and then it is the one that line
states and every instance there is stays as it is. The tool's limit never changes. -/
def Obligations.OnlyElaborationChangesParameters : Prop :=
  ∀ s t : State, step s = .next t →
    t.maxM = s.maxM ∧
    (parameterOf t.program = parameterOf s.program ∨
      ∃ (header line : Text) (rest : List Text) (m m' : Nat),
        s.program = header :: line :: rest ∧ decodeStatement 0 header = .ok (.param m) ∧
        decodeStatement m line = .ok (.param m') ∧ t.program = line :: rest ∧ parameterOf t.program = some m' ∧
        t.encoders = s.encoders ∧ t.syndromeGenerators = s.syndromeGenerators ∧
        t.errorCorrectors = s.errorCorrectors ∧ t.decoders = s.decoders)

/-! ## The environment -/

/-- R92: the channel replaces a codeword c by c XOR e, for an N-bit pattern e; flipping position p is e = 1 << (p-1). It is
an action of the environment: no port of any instance changes. No block injects an error: an application leaves every named
value but its results as it was, the codeword it reads among them. -/
def Obligations.ChannelFlipsThePattern : Prop :=
  (∀ (s : State) (m : Nat) (dst src : Ident) (e : Operand) (c pattern : BitVec (codewordLength m)) (v : Value),
    lookupIn src s.values = some (.vec ⟨codewordLength m, c⟩) → s.readOperand e = .ok v →
    onPort (codewordLength m) v = some pattern →
    ∃ t : State, runStatement (.channel m dst src e) s = .next t ∧
      lookupIn dst t.values = some (.vec ⟨codewordLength m, c ^^^ pattern⟩) ∧
      t.encoders = s.encoders ∧ t.syndromeGenerators = s.syndromeGenerators ∧
      t.errorCorrectors = s.errorCorrectors ∧ t.decoders = s.decoders ∧ t.program = s.program ∧ t.maxM = s.maxM ∧
      ∀ n, n ≠ dst → lookupIn n t.values = lookupIn n s.values) ∧
  (∀ (n p i : Nat), 1 ≤ p → p ≤ n → 1 ≤ i →
    oneHot n p = 1#n <<< (p - 1) ∧ (bitAt (oneHot n p) i = true ↔ i = p)) ∧
  (∀ (s t : State) (i : Instr), exec i s = .next t →
    ∀ n, n ∉ resultNames i → lookupIn n t.values = lookupIn n s.values)

/-- R32 and R9: explicit bits list position 1 first, so on a port the j-th bit of the string has weight 2^(j-1); a
hexadecimal literal is its integer value wherever it fits. -/
def Obligations.LiteralsOnPorts : Prop :=
  (∀ (s : State) (dst : Ident) (l : Literal), ∃ t : State, runStatement (.literal dst l) s = .next t ∧
    lookupIn dst t.values = some (literalValue l) ∧
    t.encoders = s.encoders ∧ t.syndromeGenerators = s.syndromeGenerators ∧
    t.errorCorrectors = s.errorCorrectors ∧ t.decoders = s.decoders ∧ t.program = s.program ∧ t.maxM = s.maxM ∧
    ∀ n, n ≠ dst → lookupIn n t.values = lookupIn n s.values) ∧
  (∀ (bs : List Bool) (b : BitVec bs.length), onPort bs.length (literalValue (.bits bs)) = some b →
    (∀ j, 1 ≤ j → j ≤ bs.length → bitAt b j = bs.getD (j - 1) false) ∧
    b.toNat = ((List.range bs.length).map fun j => (bs.getD j false).toNat * 2 ^ j).sum) ∧
  (∀ (w n : Nat), n < 2 ^ w → ∃ b : BitVec w, onPort w (literalValue (.hex n)) = some b ∧ b.toNat = n)

/-! ## Decoding and stepping -/

/-- Decoding the words of an instruction gives the instruction back, with its width and every name in its place, for
every instruction that can be written. The notation is R59's; that an instruction's words are its `param` line and its
own line is the model's choice (log 12). -/
def Obligations.DecodeOfEncodedInstruction : Prop :=
  ∀ i : Instr, i.wf = true → decode (encode i) = .ok i

/-- The same for every statement of the notation (R59) under the parameter in force, literals of both kinds included
(logs 11 and 12). -/
def Obligations.DecodeOfEncodedStatement : Prop :=
  ∀ (m : Nat) (st : Statement), st.wf = true → st.isUnder m = true →
    decodeStatement m (encodeStatement st) = .ok st

/-- The decoder answers only what can be written: every instruction and statement it reads is well-formed, and stands
under the parameter in force. That a name is a letter followed by letters, digits and underscores is the model's choice
(log 11). -/
def Obligations.DecodedStatementsAreWellFormed : Prop :=
  ∀ (m : Nat) (line : Text) (st : Statement), decodeStatement m line = .ok st →
    st.wf = true ∧ st.isUnder m = true

/-- Four lines of R59's own program, written out character by character, decode behind its `param` line to the blocks
they name, elaborated with M = 4. -/
def Obligations.WrittenLinesDecode : Prop :=
  decode (ascii ['p', 'a', 'r', 'a', 'm', ' ', 'M', ' ', '=', ' ', '4', '\n',
      'c', '0', ' ', '=', ' ', 'E', 'N', 'C', '(', 'd', '0', ')'])
    = .ok (.enc (ascii ['c', '0']) ⟨4, ascii ['d', '0']⟩) ∧
  decode (ascii ['p', 'a', 'r', 'a', 'm', ' ', 'M', ' ', '=', ' ', '4', '\n',
      's', ' ', ' ', '=', ' ', 'S', 'Y', 'N', '(', 'c', '1', ')'])
    = .ok (.syn (ascii ['s']) ⟨4, ascii ['c', '1']⟩) ∧
  decode (ascii ['p', 'a', 'r', 'a', 'm', ' ', 'M', ' ', '=', ' ', '4', '\n',
      '(', 'c', '2', ',', ' ', 'e', ',', ' ', 'n', 'z', ',', ' ', 'b', 'n', ')', ' ', '=', ' ',
      'C', 'O', 'R', '(', 'c', '1', ',', ' ', 's', ')'])
    = .ok (.cor (ascii ['c', '2']) (ascii ['e']) (ascii ['n', 'z']) (ascii ['b', 'n']) ⟨4, ascii ['c', '1']⟩
        (ascii ['s'])) ∧
  decode (ascii ['p', 'a', 'r', 'a', 'm', ' ', 'M', ' ', '=', ' ', '4', '\n',
      'd', '2', ' ', '=', ' ', 'D', 'E', 'C', '(', 'c', '2', ')'])
    = .ok (.dec (ascii ['d', '2']) ⟨4, ascii ['c', '2']⟩)

/-- A step runs the decoded statement, whichever it is. Under the `param` line in force, for which hardware exists, step
is `runStatement` of the statement the next line decodes to, at the state with that line taken off; a `param` statement
takes the place of the one in force. For an application that is exec, and the two lines are the words `decode` reads.
A line that is no statement, a program that does not state its parameter first, and a parameter that elaboration refuses
(R55) are refused by name; blank lines before the parameter are dropped; with no line left no input changes and the state
stays as it is (R35; logs 5 and 15). -/
def Obligations.StepRunsDecodedInstruction : Prop :=
  ∀ s : State,
    (∀ (header line : Text) (rest : List Text) (m : Nat) (st : Statement),
      s.program = header :: line :: rest → decodeStatement 0 header = .ok (.param m) →
      isElaborable m s.maxM = true → decodeStatement m line = .ok st →
      ((∀ m', st ≠ .param m') → step s = runStatement st { s with program := header :: rest }) ∧
      (∀ m', st = .param m' → step s = runStatement st { s with program := line :: rest })) ∧
    (∀ (header line : Text) (rest : List Text) (i : Instr),
      s.program = header :: line :: rest → 0x0A#8 ∉ header → 0x0A#8 ∉ line →
      decode (header ++ 0x0A#8 :: line) = .ok i → isElaborable i.width s.maxM = true →
      step s = exec i { s with program := header :: rest }) ∧
    (∀ (header line : Text) (rest : List Text) (m : Nat) (e : DecodeError),
      s.program = header :: line :: rest → decodeStatement 0 header = .ok (.param m) →
      isElaborable m s.maxM = true → decodeStatement m line = .error e → step s = .refused (.badStatement e)) ∧
    (∀ (header : Text) (rest : List Text) (m : Nat),
      s.program = header :: rest → decodeStatement 0 header = .ok (.param m) →
      (m = 0 → step s = .refused (.zeroDataWidth 0)) ∧
      (∀ l, s.maxM = some l → l < m → step s = .refused (.dataWidthTooLarge m))) ∧
    (∀ (header : Text) (rest : List Text) (e : DecodeError),
      s.program = header :: rest → decodeStatement 0 header = .error e → step s = .refused (.badStatement e)) ∧
    (∀ (header : Text) (rest : List Text) (st : Statement),
      s.program = header :: rest → decodeStatement 0 header = .ok st → (∀ m, st ≠ .param m) → st ≠ .blank →
      step s = .refused (.badStatement .noParameter)) ∧
    (∀ (header : Text) (rest : List Text),
      s.program = header :: rest → decodeStatement 0 header = .ok .blank →
      step s = .next { s with program := rest }) ∧
    (∀ (header : Text) (m : Nat), s.program = [header] → decodeStatement 0 header = .ok (.param m) →
      isElaborable m s.maxM = true → step s = .next s) ∧
    (s.program = [] → step s = .next s)

/-! ## Invariant and reset -/

/-- R14: each output of each block is a function of the block's current input values and of M alone. Every step keeps
the invariant: every instance of each block is one of some width for which hardware exists, and every output port of it
carries the block's function of what drives its input ports. That each name is bound once, and each wire driven by one
instance of a block and width, is of the model's own making (logs 10 and 6). -/
def Obligations.StepKeepsInvariant : Prop :=
  ∀ s t : State, s.Inv → step s = .next t → t.Inv

/-- The state at power-up meets the invariant. -/
def Obligations.ResetMeetsInvariant : Prop := State.reset.Inv

/-- R113 and R112: at power-up no input is driven and no output has a settled value, and no name is bound. -/
def Obligations.ResetDrivesNothing : Prop :=
  State.reset.encoders = [] ∧ State.reset.syndromeGenerators = [] ∧ State.reset.errorCorrectors = [] ∧
  State.reset.decoders = [] ∧ State.reset.values = [] ∧ State.reset.program = []

/-! ## Instances -/

/-- R110: instances share no state and do not signal each other. Whatever a step does, no instance goes away or changes
its width, and every one keeps the value on every port but those the step's statement gives new inputs. Which ones these
are, by the wire they drive, is the model's choice (log 6). -/
def Obligations.StepKeepsEveryInstance : Prop :=
  ∀ s t : State, step s = .next t →
    s.InstancesStay [] t ∨
    ∃ (header line : Text) (rest : List Text) (m : Nat) (st : Statement),
      s.program = header :: line :: rest ∧ decodeStatement 0 header = .ok (.param m) ∧
      decodeStatement m line = .ok st ∧ s.InstancesStay (drivenKeys st) t

/-- R110: an environment may instantiate any number of each block, with the same or different M. Any applications for
whose widths hardware exists, none reading a result of an earlier one, and whose operands are driven, each on a wire of
its own that no instance drives yet, all complete one after another: every instance there was keeps its ports, and each
application adds one (that it adds one on a wire that is free is the model's choice, log 6). -/
def Obligations.AnyNumberOfInstances : Prop :=
  ∀ (s : State) (apps : List Instr),
    (∀ i ∈ apps, isElaborable i.width s.maxM = true ∧ .named (outputName i) ∉ s.wires ∧
      ∀ p ∈ operandPorts i, ∃ b : BitVec p.1, s.readInput p.1 p.2 = .ok b) →
    (apps.Pairwise fun i j =>
      outputName i ≠ outputName j ∧ ∀ n ∈ resultNames i, ∀ p ∈ operandPorts j, p.2 ≠ n) →
    ∃ t : State, execAll apps s = .next t ∧ s.InstancesStay [] t ∧
      t.instanceCount = s.instanceCount + apps.length

/-- R110: instances start in no order and need no synchronisation. Two applications, of any blocks and any M, neither of
which reads or names a result of the other, complete in either order with the same instances and the same named values.
That they are given to different instances, since they drive different wires, is the model's choice (log 6). -/
def Obligations.IndependentApplicationsCommute : Prop :=
  ∀ (s s1 t : State) (i j : Instr), Independent i j → exec i s = .next s1 → exec j s1 = .next t →
    ∃ s2 u : State, exec j s = .next s2 ∧ exec i s2 = .next u ∧ u.SameInstances t ∧
      (∀ n, lookupIn n u.values = lookupIn n t.values) ∧ u.program = t.program ∧ u.maxM = t.maxM

/-- R102 and R35: nothing is saved, and the next input change replaces an instance's outputs, the corrector's status among
them. Where an instance of the application's M drives the wire of its first result, the application adds no instance,
and what is on the ports of that instance afterwards is what its new inputs give and nothing else. DETCOR does so with its
two instances. That such an application is an input change of that instance is the model's choice (log 6). -/
def Obligations.InputChangeReplacesPorts : Prop :=
  ∀ (s t : State) (m : Nat), s.WiresUnique →
    (∀ (dst src : Ident), exec (.enc dst ⟨m, src⟩) s = .next t →
      (.named dst, m) ∈ s.encoders.map (Wired.key EncoderPorts.inputWidth) →
      t.encoders.map (Wired.key EncoderPorts.inputWidth) = s.encoders.map (Wired.key EncoderPorts.inputWidth) ∧
      ∃ d : BitVec m, s.readInput m src = .ok d ∧
        ∀ x ∈ t.encoders, x.wire = .named dst → x.ports.inputWidth = m →
          x.ports = ⟨driven d, driven (encodeWord m d)⟩) ∧
    (∀ (dst src : Ident), exec (.syn dst ⟨m, src⟩) s = .next t →
      (.named dst, codewordLength m) ∈ s.syndromeGenerators.map (Wired.key SyndromeGeneratorPorts.inputWidth) →
      t.syndromeGenerators.map (Wired.key SyndromeGeneratorPorts.inputWidth) =
        s.syndromeGenerators.map (Wired.key SyndromeGeneratorPorts.inputWidth) ∧
      ∃ c : BitVec (codewordLength m), s.readInput (codewordLength m) src = .ok c ∧
        ∀ x ∈ t.syndromeGenerators, x.wire = .named dst → x.ports.inputWidth = codewordLength m →
          x.ports = ⟨driven c, driven (syndromeOf m c)⟩) ∧
    (∀ (n1 n2 n3 n4 srcC srcS : Ident), exec (.cor n1 n2 n3 n4 ⟨m, srcC⟩ srcS) s = .next t →
      (.named n1, codewordLength m) ∈ s.errorCorrectors.map (Wired.key ErrorCorrectorPorts.inputWidth) →
      t.errorCorrectors.map (Wired.key ErrorCorrectorPorts.inputWidth) =
        s.errorCorrectors.map (Wired.key ErrorCorrectorPorts.inputWidth) ∧
      ∃ (c : BitVec (codewordLength m)) (syn : BitVec (computeRedundancy m)),
        s.readInput (codewordLength m) srcC = .ok c ∧ s.readInput (computeRedundancy m) srcS = .ok syn ∧
        ∀ x ∈ t.errorCorrectors, x.wire = .named n1 → x.ports.inputWidth = codewordLength m →
          x.ports = ⟨driven c, driven syn, driven (correctedWord c syn), driven syn,
            driven (syndromeNonzeroFlag syn), driven (syndromeBeyondNFlag (codewordLength m) syn)⟩) ∧
    (∀ (dst src : Ident), exec (.dec dst ⟨m, src⟩) s = .next t →
      (.named dst, codewordLength m) ∈ s.decoders.map (Wired.key DecoderPorts.inputWidth) →
      t.decoders.map (Wired.key DecoderPorts.inputWidth) = s.decoders.map (Wired.key DecoderPorts.inputWidth) ∧
      ∃ c : BitVec (codewordLength m), s.readInput (codewordLength m) src = .ok c ∧
        ∀ x ∈ t.decoders, x.wire = .named dst → x.ports.inputWidth = codewordLength m →
          x.ports = ⟨driven c, driven (decodeWord m c)⟩) ∧
    (∀ (n1 n2 n3 n4 src : Ident), runStatement (.detcor m n1 n2 n3 n4 src) s = .next t →
      (.inside n1, codewordLength m) ∈ s.syndromeGenerators.map (Wired.key SyndromeGeneratorPorts.inputWidth) →
      (.named n1, codewordLength m) ∈ s.errorCorrectors.map (Wired.key ErrorCorrectorPorts.inputWidth) →
      t.syndromeGenerators.map (Wired.key SyndromeGeneratorPorts.inputWidth) =
        s.syndromeGenerators.map (Wired.key SyndromeGeneratorPorts.inputWidth) ∧
      t.errorCorrectors.map (Wired.key ErrorCorrectorPorts.inputWidth) =
        s.errorCorrectors.map (Wired.key ErrorCorrectorPorts.inputWidth) ∧
      ∃ c : BitVec (codewordLength m), s.readInput (codewordLength m) src = .ok c ∧
        (∀ x ∈ t.syndromeGenerators, x.wire = .inside n1 → x.ports.inputWidth = codewordLength m →
          x.ports = ⟨driven c, driven (syndromeOf m c)⟩) ∧
        ∀ x ∈ t.errorCorrectors, x.wire = .named n1 → x.ports.inputWidth = codewordLength m →
          x.ports = ⟨driven c, driven (syndromeOf m c), driven (correctedWord c (syndromeOf m c)),
            driven (syndromeOf m c), driven (syndromeNonzeroFlag (syndromeOf m c)),
            driven (syndromeBeyondNFlag (codewordLength m) (syndromeOf m c))⟩)
end

