-- ==== Sys2Proof/Laws/Positions.lean ====
section
/-! SUPPORT. The bits of the vectors the blocks build, and exclusive or over positions. -/

namespace Sys2Proof.Machine

@[simp] theorem getLsbD_ofPortBits (w : Nat) (f : Nat → Bool) (j : Nat) :
    (ofPortBits w f).getLsbD j = (decide (j < w) && f j) := by
  induction w with
  | zero => simp [ofPortBits]
  | succ w ih =>
    simp only [ofPortBits, BitVec.getLsbD_cons, ih]
    by_cases h : j = w
    · simp [h]
    · have : (j < w + 1) = (j < w) := by simp; omega
      rw [if_neg h]
      simp only [this]

/-- The bit of a built vector at a position of its range. -/
theorem bitAt_ofPositions {w i : Nat} (f : Nat → Bool) (h1 : 1 ≤ i) (h2 : i ≤ w) :
    bitAt (ofPositions w f) i = f i := by
  have : i - 1 < w := by omega
  have hi : i - 1 + 1 = i := by omega
  rw [bitAt, ofPositions, getLsbD_ofPortBits, hi]
  simp [this]

/-- A position above the width holds nothing. -/
theorem bitAt_above {w i : Nat} (v : BitVec w) (h : w < i) : bitAt v i = false := by
  have : w ≤ i - 1 := by omega
  simp [bitAt, BitVec.getLsbD_of_ge _ _ this]

/-- Two vectors with the same bit at every position are equal. -/
theorem eq_of_bitAt {w : Nat} {a b : BitVec w}
    (h : ∀ i, 1 ≤ i → i ≤ w → bitAt a i = bitAt b i) : a = b := by
  apply BitVec.eq_of_getLsbD_eq
  intro j hj
  simpa [bitAt] using h (j + 1) (by omega) (by omega)

@[simp] theorem bitAt_xor {w : Nat} (a b : BitVec w) (i : Nat) :
    bitAt (a ^^^ b) i = Bool.xor (bitAt a i) (bitAt b i) := by
  simp [bitAt]

@[simp] theorem bitAt_zero (w i : Nat) : bitAt (0#w) i = false := by simp [bitAt]

theorem bitAt_oneHot {w p i : Nat} (h1 : 1 ≤ i) (h2 : i ≤ w) : bitAt (oneHot w p) i = (i == p) :=
  bitAt_ofPositions _ h1 h2

theorem bitAt_ofBitList {w : Nat} (bs : List Bool) {i : Nat} (h1 : 1 ≤ i) (h2 : i ≤ w) :
    bitAt (ofBitList w bs) i = bs.getD (i - 1) false :=
  bitAt_ofPositions _ h1 h2

theorem mem_positions {n i : Nat} : i ∈ positions n ↔ 1 ≤ i ∧ i ≤ n := by
  simp [positions, List.mem_range'_1]; omega

theorem xorOver_congr {n : Nat} {f g : Nat → Bool} (h : ∀ i, 1 ≤ i → i ≤ n → f i = g i) :
    xorOver n f = xorOver n g := by
  induction n with
  | zero => rfl
  | succ n ih =>
    simp only [xorOver]
    rw [ih fun i h1 h2 => h i h1 (by omega), h (n + 1) (by omega) (by omega)]

@[simp] theorem xorOver_false (n : Nat) : xorOver n (fun _ => false) = false := by
  induction n with
  | zero => rfl
  | succ n ih => simp [xorOver, ih]

/-- XOR over a range of an XOR of two families is the XOR of the two XORs (R66). -/
theorem xorOver_xor (n : Nat) (f g : Nat → Bool) :
    xorOver n (fun i => Bool.xor (f i) (g i)) = Bool.xor (xorOver n f) (xorOver n g) := by
  induction n with
  | zero => rfl
  | succ n ih =>
    simp only [xorOver, ih]
    cases xorOver n f <;> cases xorOver n g <;> cases f (n + 1) <;> cases g (n + 1) <;> rfl

/-- XOR over a range of a family that is false but at p is its value at p. -/
theorem xorOver_single {n p : Nat} {f : Nat → Bool} (h1 : 1 ≤ p) (h2 : p ≤ n)
    (h : ∀ i, i ≠ p → f i = false) : xorOver n f = f p := by
  induction n with
  | zero => omega
  | succ n ih =>
    by_cases hp : p = n + 1
    · subst hp
      have : xorOver n f = false := by
        rw [xorOver_congr (g := fun _ => false) fun i _ h3 => h i (by omega)]; simp
      simp [xorOver, this]
    · simp [xorOver, ih (by omega), h (n + 1) (by omega)]

/-- Membership in a group is a binary digit of the position (R60, R61). -/
theorem inGroup_eq_testBit (i k : Nat) : inGroup i k = i.testBit k := by
  unfold inGroup
  by_cases h : i.testBit k = true
  · rw [h]
    simp only [bne_iff_ne, ne_eq]
    intro h0
    have := congrArg (fun x => x.testBit k) h0
    simp [Nat.testBit_and, h] at this
  · have hf : i.testBit k = false := by simpa using h
    rw [hf]
    simp only [bne_eq_false_iff_eq]
    apply Nat.eq_of_testBit_eq
    intro j
    by_cases hj : k = j
    · subst hj; simp [Nat.testBit_and, hf]
    · simp [Nat.testBit_and, hj]

/-- The low bits of a number as a weighted sum of its binary digits. -/
theorem mod_two_pow_eq_sum (n w : Nat) :
    n % 2 ^ w = ((List.range w).map fun j => (n.testBit j).toNat * 2 ^ j).sum := by
  induction w with
  | zero => simp [Nat.mod_one]
  | succ w ih =>
    have hb : (n.testBit w).toNat = n / 2 ^ w % 2 := by
      rw [Nat.testBit_eq_decide_div_mod_eq]
      rcases Nat.mod_two_eq_zero_or_one (n / 2 ^ w) with h | h <;> simp [h]
    rw [Nat.pow_succ, Nat.mod_mul, ih, List.range_succ]
    simp [hb, Nat.mul_comm]

/-- The integer value of a vector is the sum of its bits, bit j with weight 2^j (R9). -/
theorem toNat_eq_sum {w : Nat} (v : BitVec w) :
    v.toNat = ((List.range w).map fun j => (v.getLsbD j).toNat * 2 ^ j).sum := by
  have h := mod_two_pow_eq_sum v.toNat w
  rwa [Nat.mod_eq_of_lt v.isLt] at h

end Sys2Proof.Machine
end

