-- ==== Sys2Proof/Laws/Blocks.lean ====
section
/-! SUPPORT. What each block function gives, bit by bit: one lemma per function. -/

namespace Sys2Proof.Machine

theorem bitAt_applyParity {n : Nat} (v : BitVec n) {i : Nat} (h1 : 1 ≤ i) (h2 : i ≤ n) :
    bitAt (applyParity v) i = if isPow2 i then groupParity v (floorLog2 i) else bitAt v i :=
  bitAt_ofPositions _ h1 h2

theorem bitAt_setParity {n : Nat} (v : BitVec n) (k : Nat) {i : Nat} (h1 : 1 ≤ i) (h2 : i ≤ n) :
    bitAt (setParity v k) i = if i = 2 ^ k then groupParity v k else bitAt v i :=
  bitAt_ofPositions _ h1 h2

@[simp] theorem getLsbD_syndromeOf (m : Nat) (c : BitVec (codewordLength m)) (k : Nat) :
    (syndromeOf m c).getLsbD k = (decide (k < computeRedundancy m) && groupParity c k) :=
  getLsbD_ofPortBits _ _ _

theorem bitAt_correctedWord {n r : Nat} (c : BitVec n) (s : BitVec r) {i : Nat} (h1 : 1 ≤ i) (h2 : i ≤ n) :
    bitAt (correctedWord c s) i = Bool.xor (bitAt c i) (s.toNat == i) :=
  bitAt_ofPositions _ h1 h2

theorem bitAt_decodeWord (m : Nat) (c : BitVec (codewordLength m)) {j : Nat} (h1 : 1 ≤ j) (h2 : j ≤ m) :
    bitAt (decodeWord m c) j = bitAt c (dpos (codewordLength m) j) :=
  bitAt_ofPositions _ h1 h2

theorem bitAt_layout (m : Nat) (d : BitVec m) {i : Nat} (h1 : 1 ≤ i) (h2 : i ≤ codewordLength m) :
    bitAt (layout m d) i = (layoutLoop m d).1.getD (i - 1) false :=
  bitAt_ofBitList _ h1 h2

@[simp] theorem toNat_syndromeNonzeroFlag {r : Nat} (s : BitVec r) :
    (syndromeNonzeroFlag s).toNat = if s.toNat = 0 then 0 else 1 := by
  by_cases h : s.toNat = 0 <;> simp [syndromeNonzeroFlag, h]

@[simp] theorem toNat_syndromeBeyondNFlag {r : Nat} (n : Nat) (s : BitVec r) :
    (syndromeBeyondNFlag n s).toNat = if n < s.toNat then 1 else 0 := by
  by_cases h : n < s.toNat <;> simp [syndromeBeyondNFlag, h]

end Sys2Proof.Machine
end

