-- ==== Sys2Proof/Laws/State.lean ====
section
/-! SUPPORT. One lemma per field of State for each update the operations make. -/

namespace Sys2Proof.Machine

/-! ### bind -/

@[simp] theorem State.bind_encoders (s : State) (n : Ident) (v : Value) :
    (s.bind n v).encoders = s.encoders := rfl

@[simp] theorem State.bind_syndromeGenerators (s : State) (n : Ident) (v : Value) :
    (s.bind n v).syndromeGenerators = s.syndromeGenerators := rfl

@[simp] theorem State.bind_errorCorrectors (s : State) (n : Ident) (v : Value) :
    (s.bind n v).errorCorrectors = s.errorCorrectors := rfl

@[simp] theorem State.bind_decoders (s : State) (n : Ident) (v : Value) :
    (s.bind n v).decoders = s.decoders := rfl

@[simp] theorem State.bind_values (s : State) (n : Ident) (v : Value) :
    (s.bind n v).values = bindIn n v s.values := rfl

@[simp] theorem State.bind_program (s : State) (n : Ident) (v : Value) :
    (s.bind n v).program = s.program := rfl

@[simp] theorem State.bind_maxM (s : State) (n : Ident) (v : Value) :
    (s.bind n v).maxM = s.maxM := rfl

/-! ### name -/

@[simp] theorem State.name_encoders (s : State) (n : Ident) {w : Nat} (v : BitVec w) :
    (s.name n v).encoders = s.encoders := rfl

@[simp] theorem State.name_syndromeGenerators (s : State) (n : Ident) {w : Nat} (v : BitVec w) :
    (s.name n v).syndromeGenerators = s.syndromeGenerators := rfl

@[simp] theorem State.name_errorCorrectors (s : State) (n : Ident) {w : Nat} (v : BitVec w) :
    (s.name n v).errorCorrectors = s.errorCorrectors := rfl

@[simp] theorem State.name_decoders (s : State) (n : Ident) {w : Nat} (v : BitVec w) :
    (s.name n v).decoders = s.decoders := rfl

@[simp] theorem State.name_values (s : State) (n : Ident) {w : Nat} (v : BitVec w) :
    (s.name n v).values = bindIn n (.vec ⟨w, v⟩) s.values := rfl

@[simp] theorem State.name_program (s : State) (n : Ident) {w : Nat} (v : BitVec w) :
    (s.name n v).program = s.program := rfl

@[simp] theorem State.name_maxM (s : State) (n : Ident) {w : Nat} (v : BitVec w) :
    (s.name n v).maxM = s.maxM := rfl

/-! ### driveEncoder -/

@[simp] theorem State.driveEncoder_encoders (s : State) (w : Wire) (m : Nat) (d : BitVec m) :
    (s.driveEncoder w m d).encoders =
      settleOn EncoderPorts.inputWidth w ⟨driven d, driven (encodeWord m d)⟩ s.encoders := rfl

@[simp] theorem State.driveEncoder_syndromeGenerators (s : State) (w : Wire) (m : Nat) (d : BitVec m) :
    (s.driveEncoder w m d).syndromeGenerators = s.syndromeGenerators := rfl

@[simp] theorem State.driveEncoder_errorCorrectors (s : State) (w : Wire) (m : Nat) (d : BitVec m) :
    (s.driveEncoder w m d).errorCorrectors = s.errorCorrectors := rfl

@[simp] theorem State.driveEncoder_decoders (s : State) (w : Wire) (m : Nat) (d : BitVec m) :
    (s.driveEncoder w m d).decoders = s.decoders := rfl

@[simp] theorem State.driveEncoder_values (s : State) (w : Wire) (m : Nat) (d : BitVec m) :
    (s.driveEncoder w m d).values = s.values := rfl

@[simp] theorem State.driveEncoder_program (s : State) (w : Wire) (m : Nat) (d : BitVec m) :
    (s.driveEncoder w m d).program = s.program := rfl

@[simp] theorem State.driveEncoder_maxM (s : State) (w : Wire) (m : Nat) (d : BitVec m) :
    (s.driveEncoder w m d).maxM = s.maxM := rfl

/-! ### driveSyndromeGenerator -/

@[simp] theorem State.driveSyndromeGenerator_encoders (s : State) (w : Wire) (m : Nat)
    (c : BitVec (codewordLength m)) :
    (s.driveSyndromeGenerator w m c).encoders = s.encoders := rfl

@[simp] theorem State.driveSyndromeGenerator_syndromeGenerators (s : State) (w : Wire) (m : Nat)
    (c : BitVec (codewordLength m)) :
    (s.driveSyndromeGenerator w m c).syndromeGenerators =
      settleOn SyndromeGeneratorPorts.inputWidth w ⟨driven c, driven (syndromeOf m c)⟩ s.syndromeGenerators := rfl

@[simp] theorem State.driveSyndromeGenerator_errorCorrectors (s : State) (w : Wire) (m : Nat)
    (c : BitVec (codewordLength m)) :
    (s.driveSyndromeGenerator w m c).errorCorrectors = s.errorCorrectors := rfl

@[simp] theorem State.driveSyndromeGenerator_decoders (s : State) (w : Wire) (m : Nat)
    (c : BitVec (codewordLength m)) :
    (s.driveSyndromeGenerator w m c).decoders = s.decoders := rfl

@[simp] theorem State.driveSyndromeGenerator_values (s : State) (w : Wire) (m : Nat)
    (c : BitVec (codewordLength m)) :
    (s.driveSyndromeGenerator w m c).values = s.values := rfl

@[simp] theorem State.driveSyndromeGenerator_program (s : State) (w : Wire) (m : Nat)
    (c : BitVec (codewordLength m)) :
    (s.driveSyndromeGenerator w m c).program = s.program := rfl

@[simp] theorem State.driveSyndromeGenerator_maxM (s : State) (w : Wire) (m : Nat)
    (c : BitVec (codewordLength m)) :
    (s.driveSyndromeGenerator w m c).maxM = s.maxM := rfl

/-! ### driveErrorCorrector -/

@[simp] theorem State.driveErrorCorrector_encoders (s : State) (w : Wire) {n r : Nat} (c : BitVec n) (syn : BitVec r) :
    (s.driveErrorCorrector w c syn).encoders = s.encoders := rfl

@[simp] theorem State.driveErrorCorrector_syndromeGenerators (s : State) (w : Wire) {n r : Nat} (c : BitVec n) (syn : BitVec r) :
    (s.driveErrorCorrector w c syn).syndromeGenerators = s.syndromeGenerators := rfl

@[simp] theorem State.driveErrorCorrector_errorCorrectors (s : State) (w : Wire) {n r : Nat} (c : BitVec n) (syn : BitVec r) :
    (s.driveErrorCorrector w c syn).errorCorrectors = settleOn ErrorCorrectorPorts.inputWidth w ⟨driven c, driven syn, driven (correctedWord c syn), driven syn,
      driven (syndromeNonzeroFlag syn), driven (syndromeBeyondNFlag n syn)⟩ s.errorCorrectors := rfl

@[simp] theorem State.driveErrorCorrector_decoders (s : State) (w : Wire) {n r : Nat} (c : BitVec n) (syn : BitVec r) :
    (s.driveErrorCorrector w c syn).decoders = s.decoders := rfl

@[simp] theorem State.driveErrorCorrector_values (s : State) (w : Wire) {n r : Nat} (c : BitVec n) (syn : BitVec r) :
    (s.driveErrorCorrector w c syn).values = s.values := rfl

@[simp] theorem State.driveErrorCorrector_program (s : State) (w : Wire) {n r : Nat} (c : BitVec n) (syn : BitVec r) :
    (s.driveErrorCorrector w c syn).program = s.program := rfl

@[simp] theorem State.driveErrorCorrector_maxM (s : State) (w : Wire) {n r : Nat} (c : BitVec n) (syn : BitVec r) :
    (s.driveErrorCorrector w c syn).maxM = s.maxM := rfl

/-! ### driveDecoder -/

@[simp] theorem State.driveDecoder_encoders (s : State) (w : Wire) (m : Nat)
    (c : BitVec (codewordLength m)) :
    (s.driveDecoder w m c).encoders = s.encoders := rfl

@[simp] theorem State.driveDecoder_syndromeGenerators (s : State) (w : Wire) (m : Nat)
    (c : BitVec (codewordLength m)) :
    (s.driveDecoder w m c).syndromeGenerators = s.syndromeGenerators := rfl

@[simp] theorem State.driveDecoder_errorCorrectors (s : State) (w : Wire) (m : Nat)
    (c : BitVec (codewordLength m)) :
    (s.driveDecoder w m c).errorCorrectors = s.errorCorrectors := rfl

@[simp] theorem State.driveDecoder_decoders (s : State) (w : Wire) (m : Nat)
    (c : BitVec (codewordLength m)) :
    (s.driveDecoder w m c).decoders =
      settleOn DecoderPorts.inputWidth w ⟨driven c, driven (decodeWord m c)⟩ s.decoders := rfl

@[simp] theorem State.driveDecoder_values (s : State) (w : Wire) (m : Nat)
    (c : BitVec (codewordLength m)) :
    (s.driveDecoder w m c).values = s.values := rfl

@[simp] theorem State.driveDecoder_program (s : State) (w : Wire) (m : Nat)
    (c : BitVec (codewordLength m)) :
    (s.driveDecoder w m c).program = s.program := rfl

@[simp] theorem State.driveDecoder_maxM (s : State) (w : Wire) (m : Nat)
    (c : BitVec (codewordLength m)) :
    (s.driveDecoder w m c).maxM = s.maxM := rfl

/-! ### nameCorrectorOutputs -/

@[simp] theorem State.nameCorrectorOutputs_encoders (s : State) (n1 n2 n3 n4 : Ident) {n r : Nat}
    (c : BitVec n) (syn : BitVec r) :
    (s.nameCorrectorOutputs n1 n2 n3 n4 c syn).encoders = s.encoders := rfl

@[simp] theorem State.nameCorrectorOutputs_syndromeGenerators (s : State) (n1 n2 n3 n4 : Ident) {n r : Nat}
    (c : BitVec n) (syn : BitVec r) :
    (s.nameCorrectorOutputs n1 n2 n3 n4 c syn).syndromeGenerators = s.syndromeGenerators := rfl

@[simp] theorem State.nameCorrectorOutputs_errorCorrectors (s : State) (n1 n2 n3 n4 : Ident) {n r : Nat}
    (c : BitVec n) (syn : BitVec r) :
    (s.nameCorrectorOutputs n1 n2 n3 n4 c syn).errorCorrectors = s.errorCorrectors := rfl

@[simp] theorem State.nameCorrectorOutputs_decoders (s : State) (n1 n2 n3 n4 : Ident) {n r : Nat}
    (c : BitVec n) (syn : BitVec r) :
    (s.nameCorrectorOutputs n1 n2 n3 n4 c syn).decoders = s.decoders := rfl

@[simp] theorem State.nameCorrectorOutputs_values (s : State) (n1 n2 n3 n4 : Ident) {n r : Nat}
    (c : BitVec n) (syn : BitVec r) :
    (s.nameCorrectorOutputs n1 n2 n3 n4 c syn).values = bindIn n4 (.vec ⟨1, syndromeBeyondNFlag n syn⟩) (bindIn n3 (.vec ⟨1, syndromeNonzeroFlag syn⟩)
        (bindIn n2 (.vec ⟨r, syn⟩) (bindIn n1 (.vec ⟨n, correctedWord c syn⟩) s.values))) := rfl

@[simp] theorem State.nameCorrectorOutputs_program (s : State) (n1 n2 n3 n4 : Ident) {n r : Nat}
    (c : BitVec n) (syn : BitVec r) :
    (s.nameCorrectorOutputs n1 n2 n3 n4 c syn).program = s.program := rfl

@[simp] theorem State.nameCorrectorOutputs_maxM (s : State) (n1 n2 n3 n4 : Ident) {n r : Nat}
    (c : BitVec n) (syn : BitVec r) :
    (s.nameCorrectorOutputs n1 n2 n3 n4 c syn).maxM = s.maxM := rfl

/-! ### withFetchWord -/

@[simp] theorem State.withFetchWord_encoders (s : State) (nbits w : Nat) :
    (s.withFetchWord nbits w).encoders = s.encoders := rfl

@[simp] theorem State.withFetchWord_syndromeGenerators (s : State) (nbits w : Nat) :
    (s.withFetchWord nbits w).syndromeGenerators = s.syndromeGenerators := rfl

@[simp] theorem State.withFetchWord_errorCorrectors (s : State) (nbits w : Nat) :
    (s.withFetchWord nbits w).errorCorrectors = s.errorCorrectors := rfl

@[simp] theorem State.withFetchWord_decoders (s : State) (nbits w : Nat) :
    (s.withFetchWord nbits w).decoders = s.decoders := rfl

@[simp] theorem State.withFetchWord_values (s : State) (nbits w : Nat) :
    (s.withFetchWord nbits w).values = s.values := rfl

@[simp] theorem State.withFetchWord_program (s : State) (nbits w : Nat) :
    (s.withFetchWord nbits w).program = lines (textOfWord nbits w) ++ s.program := rfl

@[simp] theorem State.withFetchWord_maxM (s : State) (nbits w : Nat) :
    (s.withFetchWord nbits w).maxM = s.maxM := rfl

/-! ### undriven -/

@[simp] theorem State.undriven_encoders (vs : List (Ident × Value)) (ls : List Text) (l : WidthLimit) :
    (State.undriven vs ls l).encoders = [] := rfl

@[simp] theorem State.undriven_syndromeGenerators (vs : List (Ident × Value)) (ls : List Text) (l : WidthLimit) :
    (State.undriven vs ls l).syndromeGenerators = [] := rfl

@[simp] theorem State.undriven_errorCorrectors (vs : List (Ident × Value)) (ls : List Text) (l : WidthLimit) :
    (State.undriven vs ls l).errorCorrectors = [] := rfl

@[simp] theorem State.undriven_decoders (vs : List (Ident × Value)) (ls : List Text) (l : WidthLimit) :
    (State.undriven vs ls l).decoders = [] := rfl

@[simp] theorem State.undriven_values (vs : List (Ident × Value)) (ls : List Text) (l : WidthLimit) :
    (State.undriven vs ls l).values = vs := rfl

@[simp] theorem State.undriven_program (vs : List (Ident × Value)) (ls : List Text) (l : WidthLimit) :
    (State.undriven vs ls l).program = ls := rfl

@[simp] theorem State.undriven_maxM (vs : List (Ident × Value)) (ls : List Text) (l : WidthLimit) :
    (State.undriven vs ls l).maxM = l := rfl

end Sys2Proof.Machine
end

