-- ==== Sys2Proof/Laws/Ops.lean ====
section
/-! SUPPORT. What each shared operation can do, said once; callers cite these instead of unfolding it. -/

namespace Sys2Proof.Machine

/-! ### Named values -/

@[simp] theorem lookupIn_bindIn_self (n : Ident) (v : Value) (vs : List (Ident × Value)) :
    lookupIn n (bindIn n v vs) = some v := by
  induction vs with
  | nil => simp [bindIn, lookupIn]
  | cons p rest ih =>
    obtain ⟨m, u⟩ := p
    by_cases h : m = n <;> simp [bindIn, lookupIn, h, ih]

theorem lookupIn_bindIn_ne {n k : Ident} (h : k ≠ n) (v : Value) (vs : List (Ident × Value)) :
    lookupIn k (bindIn n v vs) = lookupIn k vs := by
  induction vs with
  | nil => simp [bindIn, lookupIn, Ne.symm h]
  | cons p rest ih =>
    obtain ⟨m, u⟩ := p
    by_cases hm : m = n
    · subst hm; simp [bindIn, lookupIn, Ne.symm h]
    · simp [bindIn, lookupIn, hm, ih]

/-- Reading a name after binding one. -/
theorem lookupIn_bindIn (n k : Ident) (v : Value) (vs : List (Ident × Value)) :
    lookupIn k (bindIn n v vs) = if k = n then some v else lookupIn k vs := by
  by_cases h : k = n
  · subst h; simp
  · simp [h, lookupIn_bindIn_ne h]

theorem mem_names_bindIn (n k : Ident) (v : Value) (vs : List (Ident × Value)) :
    k ∈ (bindIn n v vs).map Prod.fst ↔ k = n ∨ k ∈ vs.map Prod.fst := by
  induction vs with
  | nil => simp [bindIn]
  | cons p rest ih =>
    obtain ⟨m, u⟩ := p
    by_cases h : m = n
    · subst h; simp [bindIn]
    · simp only [bindIn, h, if_false, List.map_cons, List.mem_cons, ih]; tauto

/-- Binding keeps each name bound once. -/
theorem names_nodup_bindIn (n : Ident) (v : Value) {vs : List (Ident × Value)}
    (h : (vs.map Prod.fst).Nodup) : ((bindIn n v vs).map Prod.fst).Nodup := by
  induction vs with
  | nil => simp [bindIn]
  | cons p rest ih =>
    obtain ⟨m, u⟩ := p
    simp only [List.map_cons, List.nodup_cons] at h
    by_cases hm : m = n
    · subst hm; simpa [bindIn] using h
    · simp only [bindIn, hm, if_false, List.map_cons, List.nodup_cons, mem_names_bindIn]
      exact ⟨by simp [h.1], ih h.2⟩

theorem State.NamesUnique.bind {s : State} (h : s.NamesUnique) (n : Ident) (v : Value) :
    (s.bind n v).NamesUnique := names_nodup_bindIn n v h

/-! ### Values on ports -/

@[simp] theorem onPort_vec_self (w : Nat) (b : BitVec w) : onPort w (.vec ⟨w, b⟩) = some b := by
  simp [onPort]

theorem onPort_vec_ne {w w' : Nat} (b : BitVec w') (h : w' ≠ w) : onPort w (.vec ⟨w', b⟩) = none := by
  simp [onPort, h]

/-- What a port is driven to: a vector of its width, or a literal that fits. -/
theorem onPort_eq_some {w : Nat} {v : Value} {b : BitVec w} :
    onPort w v = some b ↔ v = .vec ⟨w, b⟩ ∨ ∃ n, v = .literal n ∧ n < 2 ^ w ∧ b = BitVec.ofNat w n := by
  cases v with
  | literal n =>
    by_cases h : n < 2 ^ w
    · simp [onPort, h, eq_comm]
    · simp only [onPort, h, if_false]; simp; intro hn; omega
  | vec u =>
    obtain ⟨w', x⟩ := u
    by_cases h : w' = w
    · subst h; simp [onPort, eq_comm]
    · simp [onPort, h]

/-- What cannot drive a port is what misfits it. -/
theorem onPort_eq_none {w : Nat} {v : Value} : onPort w v = none ↔ Misfits w v := by
  cases v with
  | literal n => simp [onPort, Misfits]
  | vec u => by_cases h : u.width = w <;> simp [onPort, Misfits, h]

theorem readInput_eq_ok {s : State} {w : Nat} {n : Ident} {b : BitVec w} :
    s.readInput w n = .ok b ↔ ∃ v, lookupIn n s.values = some v ∧ onPort w v = some b := by
  unfold State.readInput
  cases hl : lookupIn n s.values with
  | none => simp [drivePort]
  | some v => cases ho : onPort w v <;> simp [drivePort, ho]

theorem readInput_undriven {s : State} {w : Nat} {n : Ident} (h : lookupIn n s.values = none) :
    s.readInput w n = .error (.undrivenInput n) := by
  simp [State.readInput, drivePort, h]

theorem readInput_mismatch {s : State} {w : Nat} {n : Ident} {v : Value} (h : lookupIn n s.values = some v)
    (ho : onPort w v = none) : s.readInput w n = .error (.widthMismatch w v) := by
  simp [State.readInput, drivePort, h, ho]

/-! ### Elaboration -/

theorem isElaborable_iff {m : Nat} {limit : WidthLimit} :
    isElaborable m limit = true ↔ 1 ≤ m ∧ ∀ l, limit = some l → m ≤ l := by
  unfold isElaborable elaborationRefusal
  cases limit with
  | none => by_cases h : m = 0 <;> simp [h]; omega
  | some l =>
    by_cases h : m = 0
    · simp [h]
    · by_cases h' : l < m <;> simp [h, h']
      omega

theorem elaborationRefusal_eq_none {m : Nat} {limit : WidthLimit} :
    elaborationRefusal m limit = none ↔ isElaborable m limit = true := by
  simp [isElaborable]

theorem onHardware_of_elaborable {s : State} {m : Nat} (h : isElaborable m s.maxM = true) (o : StepOutcome) :
    s.onHardware m o = o := by
  simp [State.onHardware, elaborationRefusal_eq_none.mpr h]

theorem onHardware_of_refusal {s : State} {m : Nat} {r : Refusal} (h : elaborationRefusal m s.maxM = some r)
    (o : StepOutcome) : s.onHardware m o = .refused r := by
  simp [State.onHardware, h]

theorem onHardware_next {s t : State} {m : Nat} {o : StepOutcome} (h : s.onHardware m o = .next t) :
    isElaborable m s.maxM = true ∧ o = .next t := by
  unfold State.onHardware at h
  split at h
  · cases h
  · exact ⟨elaborationRefusal_eq_none.mp ‹_›, h⟩

theorem withInput_of_ok {s : State} {w : Nat} {n : Ident} {v : BitVec w} (h : s.readInput w n = .ok v)
    (k : BitVec w → StepOutcome) : s.withInput w n k = k v := by
  simp [State.withInput, h]

theorem withInput_of_error {s : State} {w : Nat} {n : Ident} {r : Refusal} (h : s.readInput w n = .error r)
    (k : BitVec w → StepOutcome) : s.withInput w n k = .refused r := by
  simp [State.withInput, h]

theorem withInput_next {s t : State} {w : Nat} {n : Ident} {k : BitVec w → StepOutcome}
    (h : s.withInput w n k = .next t) : ∃ v, s.readInput w n = .ok v ∧ k v = .next t := by
  unfold State.withInput at h
  split at h
  · exact ⟨_, ‹_›, h⟩
  · cases h

end Sys2Proof.Machine
end

