-- ==== Sys2Proof/Laws/Instances.lean ====
section
/-! SUPPORT. What `settleOn` can do to the instances of a block, said once: the instance on the wire has the new ports,
every other one stays, and on each wire there is still one of a width. -/

namespace Sys2Proof.Machine

variable {P : Type} {width : P → Nat}

theorem Wired.key_eq_iff {i : Wired P} {w : Wire} {n : Nat} : i.key width = (w, n) ↔ i.wire = w ∧ width i.ports = n := by
  simp [Wired.key]

/-- The instance on the wire has the new ports. -/
theorem mem_settleOn_self (w : Wire) (p : P) (l : List (Wired P)) : ⟨w, p⟩ ∈ settleOn width w p l := by
  induction l with
  | nil => simp [settleOn]
  | cons i rest ih => unfold settleOn; split <;> simp [ih]

/-- Every other instance stays. -/
theorem mem_settleOn_of_ne {w : Wire} {p : P} {i : Wired P} {l : List (Wired P)} (h : i ∈ l)
    (hne : ¬ (i.wire = w ∧ width i.ports = width p)) : i ∈ settleOn width w p l := by
  induction l with
  | nil => cases h
  | cons k rest ih =>
    rcases List.mem_cons.mp h with rfl | h
    · simp [settleOn, hne]
    · unfold settleOn; split <;> simp [h, ih h]

/-- There are no other instances than these. -/
theorem eq_or_mem_of_mem_settleOn {w : Wire} {p : P} {i : Wired P} {l : List (Wired P)}
    (h : i ∈ settleOn width w p l) : i = ⟨w, p⟩ ∨ i ∈ l := by
  induction l with
  | nil => exact .inl (by simpa [settleOn] using h)
  | cons k rest ih =>
    unfold settleOn at h
    split at h
    · rcases List.mem_cons.mp h with rfl | h
      · exact .inl rfl
      · exact .inr (List.mem_cons_of_mem _ h)
    · rcases List.mem_cons.mp h with rfl | h
      · exact .inr (List.mem_cons_self ..)
      · exact (ih h).imp_right (List.mem_cons_of_mem _)

/-- An input change at an instance adds none; else one is added behind the others. -/
theorem map_key_settleOn (w : Wire) (p : P) (l : List (Wired P)) :
    (settleOn width w p l).map (Wired.key width) =
      if (w, width p) ∈ l.map (Wired.key width) then l.map (Wired.key width)
      else l.map (Wired.key width) ++ [(w, width p)] := by
  induction l with
  | nil => simp [settleOn, Wired.key]
  | cons i rest ih =>
    unfold settleOn
    by_cases h : i.key width = (w, width p)
    · have := Wired.key_eq_iff.mp h
      simp [this, Wired.key]
    · rw [if_neg fun h' => h (Wired.key_eq_iff.mpr h')]
      simp only [List.map_cons, ih, List.mem_cons, Ne.symm h, false_or]
      split <;> simp

theorem KeysUnique.settleOn {l : List (Wired P)} (h : KeysUnique width l) (w : Wire) (p : P) :
    KeysUnique width (settleOn width w p l) := by
  unfold KeysUnique at *
  rw [map_key_settleOn]
  split
  · exact h
  · rename_i hn
    exact List.Nodup.append h (List.nodup_singleton _) (by simpa using hn)

/-- Where the wires are unique, what was on the ports of the instance on the wire is gone. -/
theorem eq_of_mem_settleOn {w : Wire} {p : P} {i : Wired P} {l : List (Wired P)} (hl : KeysUnique width l)
    (h : i ∈ settleOn width w p l) (hw : i.wire = w) (hp : width i.ports = width p) : i = ⟨w, p⟩ :=
  List.inj_on_of_nodup_map (hl.settleOn w p) h (mem_settleOn_self w p l)
    (by simp [Wired.key, hw, hp])

/-- What holds of all ports before and of the new ones holds of all after. -/
theorem forall_ports_settleOn {q : P → Prop} {w : Wire} {p : P} {l : List (Wired P)} (h : ∀ i ∈ l, q i.ports)
    (hp : q p) : ∀ i ∈ settleOn width w p l, q i.ports := by
  intro i hi
  rcases eq_or_mem_of_mem_settleOn hi with rfl | hi
  · exact hp
  · exact h i hi

/-- On a wire that no instance drives a further one is added. -/
theorem settleOn_of_free {w : Wire} {l : List (Wired P)} (h : w ∉ l.map Wired.wire) (p : P) :
    settleOn width w p l = l ++ [⟨w, p⟩] := by
  induction l with
  | nil => rfl
  | cons i rest ih =>
    simp only [List.map_cons, List.mem_cons, not_or] at h
    simp [settleOn, Ne.symm h.1, ih h.2]

/-- Input changes at instances on different wires commute. -/
theorem settleOn_comm {w w' : Wire} (hw : w ≠ w') (p p' : P) (l : List (Wired P)) :
    (settleOn width w p (settleOn width w' p' l)).Perm (settleOn width w' p' (settleOn width w p l)) := by
  induction l with
  | nil => simp [settleOn, hw, hw.symm, List.Perm.swap]
  | cons i rest ih =>
    by_cases h1 : i.wire = w ∧ width i.ports = width p
    · have h2 : ¬ (i.wire = w' ∧ width i.ports = width p') := fun h => hw (h1.1.symm.trans h.1)
      simp [settleOn, h1, hw]
    · by_cases h2 : i.wire = w' ∧ width i.ports = width p'
      · simp [settleOn, h2, hw.symm]
      · simpa [settleOn, h1, h2] using ih

theorem Stay.refl (width : P → Nat) (ks : List (Wire × Nat)) (l : List (Wired P)) : Stay width ks l l :=
  ⟨List.prefix_rfl, fun _ h _ => h⟩

theorem Stay.trans {ks : List (Wire × Nat)} {l l' l'' : List (Wired P)} (h : Stay width ks l l') (h' : Stay width ks l' l'') :
    Stay width ks l l'' :=
  ⟨h.keys.trans h'.keys, fun i hi hw => h'.ports i (h.ports i hi hw) hw⟩

/-- Only the instance of that wire and width can change. -/
theorem stay_settleOn {ks : List (Wire × Nat)} {w : Wire} {p : P} (hk : (w, width p) ∈ ks) (l : List (Wired P)) :
    Stay width ks l (settleOn width w p l) where
  keys := by rw [map_key_settleOn]; split <;> simp
  ports i hi h := mem_settleOn_of_ne hi fun h' => h (Wired.key_eq_iff.mpr h' ▸ hk)

end Sys2Proof.Machine
end

