-- ==== Sys2Proof/Laws/Exec.lean ====
section
/-! SUPPORT. What each meaning can do: its next state where it completes, and, from a next state, how it came
about. -/

namespace Sys2Proof.Machine

theorem execEnc_of_ok {s : State} {m : Nat} (dst : Ident) {src : Ident} {d : BitVec m}
    (h : isElaborable m s.maxM = true) (hr : s.readInput m src = .ok d) :
    execEnc dst ⟨m, src⟩ s = .next ((s.driveEncoder (.named dst) m d).name dst (encodeWord m d)) := by
  simp [execEnc, onHardware_of_elaborable h, withInput_of_ok hr]

theorem execEnc_next {s t : State} {m : Nat} {dst src : Ident} (h : execEnc dst ⟨m, src⟩ s = .next t) :
    isElaborable m s.maxM = true ∧ ∃ d, s.readInput m src = .ok d ∧
      t = (s.driveEncoder (.named dst) m d).name dst (encodeWord m d) := by
  obtain ⟨he, h⟩ := onHardware_next h
  obtain ⟨d, hr, h⟩ := withInput_next h
  cases h
  exact ⟨he, d, hr, rfl⟩

theorem execSyn_of_ok {s : State} {m : Nat} (dst : Ident) {src : Ident} {c : BitVec (codewordLength m)}
    (h : isElaborable m s.maxM = true) (hr : s.readInput (codewordLength m) src = .ok c) :
    execSyn dst ⟨m, src⟩ s = .next ((s.driveSyndromeGenerator (.named dst) m c).name dst (syndromeOf m c)) := by
  simp [execSyn, onHardware_of_elaborable h, withInput_of_ok hr]

theorem execSyn_next {s t : State} {m : Nat} {dst src : Ident} (h : execSyn dst ⟨m, src⟩ s = .next t) :
    isElaborable m s.maxM = true ∧ ∃ c, s.readInput (codewordLength m) src = .ok c ∧
      t = (s.driveSyndromeGenerator (.named dst) m c).name dst (syndromeOf m c) := by
  obtain ⟨he, h⟩ := onHardware_next h
  obtain ⟨c, hr, h⟩ := withInput_next h
  cases h
  exact ⟨he, c, hr, rfl⟩

theorem execCor_of_ok {s : State} {m : Nat} (n1 n2 n3 n4 : Ident) {srcC srcS : Ident} {c : BitVec (codewordLength m)}
    {syn : BitVec (computeRedundancy m)} (h : isElaborable m s.maxM = true) (hc : s.readInput (codewordLength m) srcC = .ok c)
    (hs : s.readInput (computeRedundancy m) srcS = .ok syn) :
    execCor n1 n2 n3 n4 ⟨m, srcC⟩ srcS s =
      .next ((s.driveErrorCorrector (.named n1) c syn).nameCorrectorOutputs n1 n2 n3 n4 c syn) := by
  simp [execCor, onHardware_of_elaborable h, withInput_of_ok hc, withInput_of_ok hs]

theorem execCor_next {s t : State} {m : Nat} {n1 n2 n3 n4 srcC srcS : Ident}
    (h : execCor n1 n2 n3 n4 ⟨m, srcC⟩ srcS s = .next t) :
    isElaborable m s.maxM = true ∧ ∃ c syn, s.readInput (codewordLength m) srcC = .ok c ∧ s.readInput (computeRedundancy m) srcS = .ok syn ∧
      t = (s.driveErrorCorrector (.named n1) c syn).nameCorrectorOutputs n1 n2 n3 n4 c syn := by
  obtain ⟨he, h⟩ := onHardware_next h
  obtain ⟨c, hc, h⟩ := withInput_next h
  obtain ⟨syn, hs, h⟩ := withInput_next h
  cases h
  exact ⟨he, c, syn, hc, hs, rfl⟩

theorem execDec_of_ok {s : State} {m : Nat} (dst : Ident) {src : Ident} {c : BitVec (codewordLength m)}
    (h : isElaborable m s.maxM = true) (hr : s.readInput (codewordLength m) src = .ok c) :
    execDec dst ⟨m, src⟩ s = .next ((s.driveDecoder (.named dst) m c).name dst (decodeWord m c)) := by
  simp [execDec, onHardware_of_elaborable h, withInput_of_ok hr]

theorem execDec_next {s t : State} {m : Nat} {dst src : Ident} (h : execDec dst ⟨m, src⟩ s = .next t) :
    isElaborable m s.maxM = true ∧ ∃ c, s.readInput (codewordLength m) src = .ok c ∧
      t = (s.driveDecoder (.named dst) m c).name dst (decodeWord m c) := by
  obtain ⟨he, h⟩ := onHardware_next h
  obtain ⟨c, hr, h⟩ := withInput_next h
  cases h
  exact ⟨he, c, hr, rfl⟩

theorem execDetcor_of_ok {s : State} {m : Nat} (n1 n2 n3 n4 : Ident) {src : Ident} {c : BitVec (codewordLength m)}
    (h : isElaborable m s.maxM = true) (hr : s.readInput (codewordLength m) src = .ok c) :
    execDetcor m n1 n2 n3 n4 src s =
      .next (((s.driveSyndromeGenerator (.inside n1) m c).driveErrorCorrector (.named n1) c (syndromeOf m c)).nameCorrectorOutputs
        n1 n2 n3 n4 c (syndromeOf m c)) := by
  simp [execDetcor, onHardware_of_elaborable h, withInput_of_ok hr]

theorem execDetcor_next {s t : State} {m : Nat} {n1 n2 n3 n4 src : Ident} (h : execDetcor m n1 n2 n3 n4 src s = .next t) :
    isElaborable m s.maxM = true ∧ ∃ c, s.readInput (codewordLength m) src = .ok c ∧
      t = ((s.driveSyndromeGenerator (.inside n1) m c).driveErrorCorrector (.named n1) c (syndromeOf m c)).nameCorrectorOutputs
        n1 n2 n3 n4 c (syndromeOf m c) := by
  obtain ⟨he, h⟩ := onHardware_next h
  obtain ⟨c, hr, h⟩ := withInput_next h
  cases h
  exact ⟨he, c, hr, rfl⟩

theorem execParam_next {s t : State} {m : Nat} (h : execParam m s = .next t) : isElaborable m s.maxM = true ∧ t = s := by
  unfold execParam at h
  split at h
  · cases h
  · cases h; exact ⟨elaborationRefusal_eq_none.mp ‹_›, rfl⟩

/-- What a channel statement that completes does: it names one vector. -/
theorem execChannel_next {s t : State} {m : Nat} {dst src : Ident} {e : Operand}
    (h : execChannel m dst src e s = .next t) :
    ∃ (w : Nat) (a b : Value) (x y : BitVec w), s.readValue src = .ok a ∧ s.readOperand e = .ok b ∧
      w = xorWidth (codewordLength m) a b ∧ onPort w a = some x ∧ onPort w b = some y ∧ t = s.name dst (x ^^^ y) := by
  unfold execChannel at h
  split at h
  · cases h
  · split at h
    · cases h
    · unfold State.xorValues at h
      split at h
      · cases h; exact ⟨_, _, _, _, _, ‹_›, ‹_›, rfl, ‹_›, ‹_›, rfl⟩
      · cases h
      · cases h

/-! ### Instances -/

theorem State.InstancesStay.refl (ks : List (Wire × Nat)) (s : State) : s.InstancesStay ks s :=
  ⟨.refl .., .refl .., .refl .., .refl ..⟩

theorem State.InstancesStay.trans {ks : List (Wire × Nat)} {s t u : State} (h : s.InstancesStay ks t)
    (h' : t.InstancesStay ks u) : s.InstancesStay ks u :=
  ⟨h.encoders.trans h'.encoders, h.syndromeGenerators.trans h'.syndromeGenerators,
    h.errorCorrectors.trans h'.errorCorrectors, h.decoders.trans h'.decoders⟩

@[simp] theorem execAll_nil (s : State) : execAll [] s = .next s := rfl

theorem execAll_cons_of_next {i : Instr} {s t : State} (h : exec i s = .next t) (rest : List Instr) :
    execAll (i :: rest) s = execAll rest t := by
  simp [execAll, h]

end Sys2Proof.Machine
end

