-- ==== Sys2Proof/Laws/PerInstr.lean ====
section
/-! SUPPORT. Facts about every instruction as syntax, one lemma per constructor. -/

namespace Sys2Proof.Laws

open Sys2Proof.Machine

/-- A byte that an instruction's text is made of: a name's character, a space, the line feed behind the `param` line,
or one of `=`, `(`, `)`, `,`. -/
def isLineByte (b : Byte) : Bool :=
  isIdentByte b || b = 0x20#8 || b = 0x0A#8 || b = 0x3D#8 || b = 0x28#8 || b = 0x29#8 || b = 0x2C#8

theorem isIdentByte_of_isLetter {b : Byte} (h : isLetter b = true) : isIdentByte b = true := by
  simp [isIdentByte, h]

theorem all_identByte_of_isIdent {n : Ident} (h : isIdent n = true) : n.all isIdentByte = true := by
  cases n with
  | nil => rfl
  | cons b bs =>
    simp only [isIdent, Bool.and_eq_true] at h
    simp [List.all_cons, isIdentByte_of_isLetter h.1, h.2]

theorem all_lineByte_of_isIdent {n : Ident} (h : isIdent n = true) : n.all isLineByte = true := by
  have := all_identByte_of_isIdent h
  simp only [List.all_eq_true] at this ⊢
  intro b hb
  simp [isLineByte, this b hb]

theorem isIdentByte_digitByte {d : Nat} (h : d < 16) : isIdentByte (digitByte d) = true := by
  interval_cases d <;> rfl

/-- A numeral is made of digits and letters. -/
theorem all_identByte_writeDigits {base : Nat} (h1 : 1 ≤ base) (h2 : base ≤ 16) (fuel n : Nat) {acc : Text}
    (h : acc.all isIdentByte = true) : (writeDigits base fuel n acc).all isIdentByte = true := by
  induction fuel generalizing n acc with
  | zero => exact h
  | succ fuel ih =>
    unfold writeDigits
    split
    · simp [isIdentByte_digitByte (d := n) (by omega), h]
    · have := Nat.mod_lt n h1
      exact ih _ (by simp [isIdentByte_digitByte (d := n % base) (by omega), h])

theorem all_lineByte_paramLine (m : Nat) : (paramLine m).all isLineByte = true := by
  have h : (writeNumeral 10 m).all isLineByte = true := by
    have := all_identByte_writeDigits (base := 10) (by decide) (by decide) (m + 1) m (acc := []) rfl
    simp only [List.all_eq_true] at this ⊢
    intro b hb
    simp [isLineByte, this b hb]
  simp only [paramLine, List.all_append, h, Bool.and_true]
  decide

/-- The text of an instruction is plain where its line is. -/
theorem all_lineByte_encode {i : Instr} (h : (blockLine i).all isLineByte = true) :
    (encode i).all isLineByte = true := by
  simp [encode, all_lineByte_paramLine, h, isLineByte]

theorem writeUnary_plain {dst f src : Text} (hd : dst.all isLineByte = true) (hf : f.all isLineByte = true)
    (hs : src.all isLineByte = true) : (writeUnary dst f src).all isLineByte = true := by
  simp only [writeUnary, List.all_append, hd, hf, hs, Bool.true_and, Bool.and_true]
  decide

namespace EncodedLineIsPlain

/-- The text of a well-formed instruction holds no byte but names' characters, spaces, the line feed behind the `param`
line and the four symbols: no comment sign, no quote, no NUL. -/
def Statement (i : Instr) : Prop := i.wf = true → (encode i).all isLineByte = true

theorem enc (codewordOut : Ident) (dataIn : Input) : Statement (.enc codewordOut dataIn) := by
  intro h
  simp only [Instr.wf, Instr.names, List.all_cons, List.all_nil, Bool.and_true, Bool.and_eq_true] at h
  exact all_lineByte_encode
    (writeUnary_plain (all_lineByte_of_isIdent h.1) (by decide) (all_lineByte_of_isIdent h.2))

theorem syn (syndrome : Ident) (codewordIn : Input) : Statement (.syn syndrome codewordIn) := by
  intro h
  simp only [Instr.wf, Instr.names, List.all_cons, List.all_nil, Bool.and_true, Bool.and_eq_true] at h
  exact all_lineByte_encode
    (writeUnary_plain (all_lineByte_of_isIdent h.1) (by decide) (all_lineByte_of_isIdent h.2))

theorem cor (codewordOut errorPosition syndromeNonzero syndromeBeyondN : Ident) (codewordIn : Input) (syndromeIn : Ident) :
    Statement (.cor codewordOut errorPosition syndromeNonzero syndromeBeyondN codewordIn syndromeIn) := by
  intro h
  simp only [Instr.wf, Instr.names, List.all_cons, List.all_nil, Bool.and_true, Bool.and_eq_true] at h
  obtain ⟨h1, h2, h3, h4, h5, h6⟩ := h
  apply all_lineByte_encode
  simp only [blockLine, writeResults, List.all_append, all_lineByte_of_isIdent h1, all_lineByte_of_isIdent h2,
    all_lineByte_of_isIdent h3, all_lineByte_of_isIdent h4, all_lineByte_of_isIdent h5,
    all_lineByte_of_isIdent h6, Bool.and_true]
  decide

theorem dec (dataOut : Ident) (codewordIn : Input) : Statement (.dec dataOut codewordIn) := by
  intro h
  simp only [Instr.wf, Instr.names, List.all_cons, List.all_nil, Bool.and_true, Bool.and_eq_true] at h
  exact all_lineByte_encode
    (writeUnary_plain (all_lineByte_of_isIdent h.1) (by decide) (all_lineByte_of_isIdent h.2))

end EncodedLineIsPlain

end Sys2Proof.Laws
end

