-- ==== Sys2Proof/Laws/Step.lean ====
section
/-! SUPPORT. What one step can do, said once, and what every statement leaves alone. -/

namespace Sys2Proof.Machine

/-- No application touches the program or the limit of the environment's tool. -/
theorem exec_keeps {i : Instr} {s t : State} (h : exec i s = .next t) : t.program = s.program ∧ t.maxM = s.maxM := by
  cases i with
  | enc => obtain ⟨_, _, _, rfl⟩ := execEnc_next h; exact ⟨rfl, rfl⟩
  | syn => obtain ⟨_, _, _, rfl⟩ := execSyn_next h; exact ⟨rfl, rfl⟩
  | cor => obtain ⟨_, _, _, _, _, rfl⟩ := execCor_next h; exact ⟨rfl, rfl⟩
  | dec => obtain ⟨_, _, _, rfl⟩ := execDec_next h; exact ⟨rfl, rfl⟩

/-- No statement touches what is left of the program, or the limit of the environment's tool. -/
theorem runStatement_keeps {st : Statement} {s t : State} (h : runStatement st s = .next t) :
    t.program = s.program ∧ t.maxM = s.maxM := by
  cases st with
  | param => obtain ⟨_, rfl⟩ := execParam_next h; exact ⟨rfl, rfl⟩
  | literal => cases h; exact ⟨rfl, rfl⟩
  | channel => obtain ⟨_, _, _, _, _, _, _, _, _, _, rfl⟩ := execChannel_next h; exact ⟨rfl, rfl⟩
  | block i => exact exec_keeps h
  | detcor => obtain ⟨_, _, _, rfl⟩ := execDetcor_next h; exact ⟨rfl, rfl⟩
  | blank => cases h; exact ⟨rfl, rfl⟩

/-- What a step under a parameter can do: nothing where no line is left, else the statement on the next line. -/
theorem stepUnder_next {m : Nat} {header : Text} {ls : List Text} {s t : State}
    (h : stepUnder m header ls s = .next t) :
    isElaborable m s.maxM = true ∧
    (ls = [] ∧ t = s ∨
      ∃ line rest st, ls = line :: rest ∧ decodeStatement m line = .ok st ∧
        runStatement st { s with program := programAfter header line rest st } = .next t) := by
  obtain ⟨he, h⟩ := onHardware_next h
  refine ⟨he, ?_⟩
  split at h
  · cases h; exact .inl ⟨rfl, rfl⟩
  · split at h
    · exact .inr ⟨_, _, _, rfl, ‹_›, h⟩
    · cases h

/-- What a step can do: nothing with no program, drop a blank first line, or go on under the `param` line in force. -/
theorem step_next {s t : State} (h : step s = .next t) :
    (s.program = [] ∧ t = s) ∨
    (∃ header rest, s.program = header :: rest ∧ decodeStatement 0 header = .ok .blank ∧
      t = { s with program := rest }) ∨
    (∃ header rest m, s.program = header :: rest ∧ decodeStatement 0 header = .ok (.param m) ∧
      stepUnder m header rest s = .next t) := by
  unfold step at h
  split at h
  · cases h; exact .inl ⟨‹_›, rfl⟩
  · split at h
    · exact .inr (.inr ⟨_, _, _, ‹_›, ‹_›, h⟩)
    · cases h; exact .inr (.inl ⟨_, _, ‹_›, ‹_›, rfl⟩)
    · cases h
    · cases h

end Sys2Proof.Machine
end

