-- ==== Sys2Proof/Tests/Slice0.lean ====
section
/-! SUPPORT. Tests: the decoder on written words, the well-formedness smoke test, one step of each operation on the
vectors of spec/95_test_vectors.md, and, for each statement with hypotheses, operands that meet them. -/

namespace Sys2Proof.Tests

open Sys2Proof Sys2Proof.Machine

/-- The text of a string of ASCII characters. -/
def text (s : String) : Text := ascii s.toList

/-- A state with the given named values and no driven instance. -/
def bench (vs : List (Ident × Value)) : State := State.undriven vs [] none

/-- A named vector of width w and integer value n. -/
def named (s : String) (w n : Nat) : Ident × Value := (text s, .vec ⟨w, BitVec.ofNat w n⟩)

def nextState : StepOutcome → Option State
  | .next s => some s
  | _ => none

def refusalOf : StepOutcome → Option Refusal
  | .refused r => some r
  | _ => none

/-- What a name has after an outcome. -/
def valueAfter (o : StepOutcome) (s : String) : Option Value :=
  (nextState o).bind fun t => lookupIn (text s) t.values

/-! ## Words (R54, R59: the `param` line and the line of the block, each character by its ASCII code, the first in bits
7..0, a line feed between the two) -/

/-- "param M = 4", line feed, "c0 = ENC(d0)". -/
theorem test_word_enc :
    decodeTableWord 192
        0x29306428434e45203d2030630a34203d204d206d61726170
      = some (.enc (text "c0") ⟨4, text "d0"⟩) := by
  decide

/-- "param M = 12", line feed, "s = SYN(c1)". -/
theorem test_word_syn :
    decodeTableWord 192
        0x293163284e5953203d20730a3231203d204d206d61726170
      = some (.syn (text "s") ⟨12, text "c1"⟩) := by
  decide

/-- "param M = 4", line feed, "(c2, e, nz, bn) = COR(c1, s)". -/
theorem test_word_cor :
    decodeTableWord 320
        0x2973202c316328524f43203d20296e62202c7a6e202c65202c3263280a34203d204d206d61726170
      = some (.cor (text "c2") (text "e") (text "nz") (text "bn") ⟨4, text "c1"⟩ (text "s")) := by
  decide

/-- "param M = 5", line feed, "d2 = DEC(c2)". -/
theorem test_word_dec :
    decodeTableWord 192
        0x29326328434544203d2032640a35203d204d206d61726170
      = some (.dec (text "d2") ⟨5, text "c2"⟩) := by
  decide

/-- Bits above the instruction are 0: the padding is blank. -/
theorem test_word_padded : decodeTableWord 224 0x29306428434e45203d2030630a34203d204d206d61726170
    = some (.enc (text "c0") ⟨4, text "d0"⟩) := by
  decide

/-- The table's word has no bit set, and spells no statement. -/
theorem test_word_of_table : decodeTableWord 7 0 = none := by decide

/-! ## Lines of R59's program and of 95_test_vectors.md -/

theorem test_line_param : decodeStatement 4 (text "param M = 4                       -- elaboration; gives R = 3")
    = .ok (.param 4) := by rfl

theorem test_line_literal : decodeStatement 4 (text "d0 = 0xD") = .ok (.literal (text "d0") (.hex 13)) := by rfl

theorem test_line_channel : decodeStatement 4 (text "c1 = c0 XOR 0x04  -- environment")
    = .ok (.channel 4 (text "c1") (text "c0") (.lit (.hex 4))) := by rfl

theorem test_line_channel_name : decodeStatement 4 (text "c1 = c0 XOR e")
    = .ok (.channel 4 (text "c1") (text "c0") (.name (text "e"))) := by rfl

theorem test_line_detcor : decodeStatement 4 (text "(c3, e3, nz3, bn3) = DETCOR(c0)      -- no error")
    = .ok (.detcor 4 (text "c3") (text "e3") (text "nz3") (text "bn3") (text "c0")) := by rfl

/-- R32: "1011" and 4'b1101 are the same data word, 0xD. -/
theorem test_line_quoted : decodeStatement 4 (text "d = \"1011\"")
    = .ok (.literal (text "d") (.bits [true, false, true, true])) := by rfl

theorem test_line_sized : decodeStatement 4 (text "d = 4'b1101")
    = .ok (.literal (text "d") (.bits [true, false, true, true])) := by rfl

theorem test_bits_value : literalValue (.bits [true, false, true, true]) = .vec ⟨4, 0xD#4⟩ := by decide

/-! ## Rejections, by name -/

theorem test_reject_block : decodeStatement 4 (text "c0 = ABC(d0)") = .error (.unknownBlock (text "ABC")) := by rfl

theorem test_reject_arity : decodeStatement 4 (text "c0 = COR(d0)") = .error (.unknownBlock (text "COR")) := by rfl

theorem test_reject_name : decodeStatement 4 (text "0c = ENC(d0)") = .error (.badName (text "0c")) := by rfl

theorem test_reject_literal : decodeStatement 4 (text "d0 = 0xG") = .error (.badLiteral (text "0xG")) := by rfl

theorem test_reject_width : decodeStatement 4 (text "d0 = 4'b110") = .error (.badLiteral (text "4'b110")) := by rfl

theorem test_reject_character : decodeStatement 4 (text "c0 = ENC[d0]") = .error (.badCharacter 0x5B#8) := by rfl

/-- R59: the parameter is stated first. -/
theorem test_reject_no_parameter : decode (text "d0 = 0xD\nc0 = ENC(d0)") = .error .noParameter ∧
    decode (text "c0 = ENC(d0)") = .error .notAStatement := ⟨rfl, rfl⟩

theorem test_reject_form : decodeStatement 4 (text "c0 = = d0") = .error .notAStatement := by rfl

/-! ## Well-formedness: one ill-formed term for each check -/

theorem smoke_wf_ok : (Instr.enc (text "c0") ⟨4, text "d_1"⟩).wf = true := by decide

theorem smoke_wf_empty_name : (Instr.enc [] ⟨4, text "d0"⟩).wf = false := by decide

theorem smoke_wf_first_character : (Instr.syn (text "s") ⟨4, text "1c"⟩).wf = false := by decide

theorem smoke_wf_other_characters :
    (Instr.cor (text "a") (text "b") (text "c") (text "d") ⟨4, text "e"⟩ (text "s-1")).wf = false := by decide

theorem smoke_wf_result : (Instr.dec (text "d 0") ⟨4, text "c0"⟩).wf = false := by decide

theorem smoke_wf_operand : (Statement.channel 4 (text "a") (text "b") (.name (text "1"))).wf = false := by decide

/-! ## Sizes and positions (95_test_vectors.md 2.1; 30_encoding.md R44, R51) -/

theorem test_redundancy_values : [0, 1, 4, 5, 11, 12, 26, 27, 57, 58, 64, 120, 121].map computeRedundancy
    = [0, 2, 3, 4, 4, 5, 5, 6, 6, 7, 7, 7, 8] := by decide

theorem test_infer_values : (List.range 10).map inferRedundancy
    = [some 0, none, none, some 2, none, some 3, some 3, some 3, none, some 4] := by decide

theorem test_data_positions : (dataPositions 12, [3, 5, 6, 7, 9, 12].map didx)
    = ([3, 5, 6, 7, 9, 10, 11, 12], [1, 2, 3, 4, 5, 8]) := by decide

theorem test_groups_of_12 : (List.range 4).map (coverageGroup 12)
    = [[1, 3, 5, 7, 9, 11], [2, 3, 6, 7, 10, 11], [4, 5, 6, 7, 12], [8, 9, 10, 11, 12]] := by decide

/-- 95_test_vectors.md 1.1: the skeleton is "0010011", port 0x64, and both cursors are at their ends. -/
theorem test_layout : (layout 4 0xD).toNat = 0x64 ∧ (layoutLoop 4 0xD).2 = (8, 5) := by decide

/-! ## One step of each operation (95_test_vectors.md 2.2 to 2.5) -/

theorem test_enc_m4 : valueAfter (exec (.enc (text "c0") ⟨4, text "d0"⟩) (bench [(text "d0", .literal 0xD)])) "c0"
    = some (.vec ⟨7, 0x66#7⟩) := by decide

theorem test_enc_m11 : valueAfter (exec (.enc (text "c0") ⟨11, text "d0"⟩) (bench [named "d0" 11 0x400])) "c0"
    = some (.vec ⟨15, 0x408B#15⟩) := by decide

theorem test_syn_beyond_n : valueAfter (exec (.syn (text "s") ⟨5, text "c1"⟩) (bench [named "c1" 9 0x12E])) "s"
    = some (.vec ⟨4, 10#4⟩) := by decide

theorem test_syn_m8 : valueAfter (exec (.syn (text "s") ⟨8, text "c1"⟩) (bench [(text "c1", .literal 0xFFF)])) "s"
    = some (.vec ⟨4, 12#4⟩) := by decide

/-- The ports of the first error corrector. -/
def corOutputs (o : StepOutcome) : Option ErrorCorrectorPorts := (nextState o).bind fun t => (t.errorCorrectors.map Wired.ports).head?

/-- s = N = 9 restores the last position of M = 5. -/
theorem test_cor_last_position :
    corOutputs (exec (.cor (text "c2") (text "e") (text "nz") (text "bn") ⟨5, text "c1"⟩ (text "s"))
      (bench [named "c1" 9 0x0AC, named "s" 4 9]))
    = some ⟨⟨9, 0x0AC#9⟩, ⟨4, 9#4⟩, ⟨9, 0x1AC#9⟩, ⟨4, 9#4⟩, ⟨1, 1#1⟩, ⟨1, 0#1⟩⟩ := by
  decide

/-- s = N + 1 = 10 flips nothing and sets both flags. -/
theorem test_cor_beyond_n :
    corOutputs (exec (.cor (text "c2") (text "e") (text "nz") (text "bn") ⟨5, text "c1"⟩ (text "s"))
      (bench [named "c1" 9 0x12E, named "s" 4 10]))
    = some ⟨⟨9, 0x12E#9⟩, ⟨4, 10#4⟩, ⟨9, 0x12E#9⟩, ⟨4, 10#4⟩, ⟨1, 1#1⟩, ⟨1, 1#1⟩⟩ := by
  decide

theorem test_dec_m8 : valueAfter (exec (.dec (text "d2") ⟨8, text "c2"⟩) (bench [named "c2" 12 0xA27])) "d2"
    = some (.vec ⟨8, 0xA5#8⟩) := by decide

/-- Positions 1 and 2 of M = 1 are ignored. -/
theorem test_dec_m1 : valueAfter (exec (.dec (text "d2") ⟨1, text "c2"⟩) (bench [named "c2" 3 3])) "d2"
    = some (.vec ⟨1, 0#1⟩) := by decide

/-- P4: flips {1, 2} of 0x66 are miscorrected to 0x61. -/
theorem test_detcor_miscorrects :
    valueAfter (runStatement (.detcor 4 (text "c2") (text "e") (text "nz") (text "bn") (text "c1"))
      (bench [named "c1" 7 0x65])) "c2" = some (.vec ⟨7, 0x61#7⟩) := by decide

/-- P3: 0x1AC XOR 0x140 = 0x0EC. -/
theorem test_channel :
    valueAfter (runStatement (.channel 5 (text "c1") (text "c0") (.lit (.hex 0x140)))
      (bench [named "c0" 9 0x1AC])) "c1" = some (.vec ⟨9, 0x0EC#9⟩) := by decide

theorem test_param_zero : refusalOf (runStatement (.param 0) State.reset) = some (.zeroDataWidth 0) := by decide

/-- R106: of n = 16 and n = 0 the first row of R100 that applies is reported. -/
theorem test_length_refusals : widthOfLength 16 none = .error (.invalidCodewordLength 16) ∧
    widthOfLength 0 none = .error (.zeroDataWidth 0) ∧
    widthOfLength 12 (some 7) = .error (.dataWidthTooLarge 8) := ⟨rfl, rfl, rfl⟩

/-- A step of a fetched word from reset runs exactly that instruction: here the operand is not driven yet. -/
theorem test_fetch_word :
    refusalOf (step (State.reset.withFetchWord 192 0x29306428434e45203d2030630a34203d204d206d61726170))
      = some (.undrivenInput (text "d0")) := by decide

/-- A state whose program is the lines of a text. -/
def running (vs : List (Ident × Value)) (s : String) : State := { bench vs with program := lines (text s) }

/-- The parameter in force stays first, and the line made is taken off. -/
theorem test_step_keeps_param : (nextState (step (running [] "param M = 4\nd0 = 0xD\nc0 = ENC(d0)"))).map State.program
    = some (lines (text "param M = 4\nc0 = ENC(d0)")) := by decide

theorem test_idle : nextState (step State.reset) = some State.reset := by decide

/-! ## Witnesses: states and operands that meet the hypotheses of each statement together -/

/-- The data widths at the ends of two rows of R45's table meet `1 ≤ m`, and have lengths 3, 7 and 9 (statements over all
m ≥ 1: RedundancyClosedForm, ParityPositionsArePowers, LayoutPlacesEveryDataBit, EncodeClosedForm,
EncodedWordsHaveEvenParity, EncodeIsLinearAndInjective, SyndromeIsXorOfPositions, SyndromeSeesOnlyTheError,
DecodeOfEncodeIsIdentity). -/
theorem witness_widths : (1 ≤ 1 ∧ codewordLength 1 = 3) ∧ (1 ≤ 4 ∧ codewordLength 4 = 7) ∧
    (1 ≤ 5 ∧ codewordLength 5 = 9) := by decide

theorem witness_ComputeRedundancyIsSmallest : 4 + 3 + 1 ≤ 2 ^ 3 := by decide

theorem witness_InferredRedundancyOfLength : 1 ≤ 8 ∧ isPow2 8 = true ∧ isPow2 9 = false ∧ 8 = 2 ^ 3 := by decide

/-- One n for each clause: 0, a power of two, a length within the limit, and one just above it. -/
theorem witness_LengthElaboration : (0 : Nat) = 0 ∧ isPow2 16 = true ∧
    (1 ≤ 17 ∧ isPow2 17 = false ∧ ∀ l, (some 12 : WidthLimit) = some l → 17 - floorLog2 17 - 1 ≤ l) ∧
    (∃ l, (some 11 : WidthLimit) = some l ∧ l < 17 - floorLog2 17 - 1) := by
  refine ⟨rfl, by decide, ⟨by decide, by decide, ?_⟩, 11, rfl, by decide⟩
  intro l h; cases h; decide

theorem witness_DataPositionMapsAreInverse : (1 ≤ 8 ∧ 8 ≤ 8 ∧ 1 < 8) ∧ (1 ≤ 12 ∧ 12 ≤ codewordLength 8 ∧ isPow2 12 = false) := by
  decide

theorem witness_GroupsAreBinaryDigits : 1 ≤ 7 ∧ 7 ≤ codewordLength 4 ∧ 1 ≤ 1 ∧ (7 : Nat) ≠ 1 := by decide

theorem witness_GroupParityIsLinear : 1 ≤ 9 ∧ 9 ≤ 9 := by decide

/-- The reversed order is one of the orders, and position 3 is a position to copy. -/
theorem witness_ApplyParityInAnyOrder : [2, 1, 0].Perm (List.range (computeRedundancy 4)) ∧ 0 < computeRedundancy 4 ∧
    (1 ≤ 3 ∧ 3 ≤ codewordLength 4 ∧ isPow2 3 = false) := by decide

theorem witness_EncSetsParity : isElaborable 4 (bench [named "d0" 4 0xD]).maxM = true ∧
    (bench [named "d0" 4 0xD]).readInput 4 (text "d0") = .ok 0xD#4 := ⟨rfl, rfl⟩

theorem witness_EncSetsParity_positions : 2 < computeRedundancy 4 ∧ (1 ≤ 7 ∧ 7 ≤ codewordLength 4 ∧ isPow2 7 = false) := by
  decide

theorem witness_CodewordsAreZeroSyndromes : IsCodeword 4 (encodeWord 4 0xD#4) := ⟨_, rfl⟩

theorem witness_SynReportsEveryCheck : isElaborable 5 (bench [named "c1" 9 0x12E]).maxM = true ∧
    (bench [named "c1" 9 0x12E]).readInput 9 (text "c1") = .ok 0x12E#9 ∧ 3 < computeRedundancy 5 := by
  exact ⟨rfl, rfl, by decide⟩

theorem witness_TwoErrorsNameNeitherPosition : 1 ≤ 7 ∧ 7 ≤ codewordLength 5 ∧ 1 ≤ 9 ∧ 9 ≤ codewordLength 5 ∧ 7 ≠ 9 := by
  decide

/-- A state for each clause of CorThreeCases: s = 0, s = 1, s = N = 9, s = N + 1 and s = 2^R - 1 for M = 5. -/
def corBench (syn : Nat) : State := bench [named "c1" 9 0x1AC, named "s" 4 syn]

theorem witness_CorThreeCases : isElaborable 5 (corBench 0).maxM = true ∧
    (corBench 0).readInput 9 (text "c1") = .ok 0x1AC#9 ∧ (corBench 0).readInput 4 (text "s") = .ok 0#4 ∧
    (0#4).toNat = 0 := ⟨rfl, rfl, rfl, rfl⟩

theorem witness_CorThreeCases_first : (corBench 1).readInput 9 (text "c1") = .ok 0x1AC#9 ∧
    (corBench 1).readInput 4 (text "s") = .ok 1#4 ∧ 1 ≤ (1#4).toNat ∧ (1#4).toNat ≤ codewordLength 5 :=
  ⟨rfl, rfl, by decide, by decide⟩

theorem witness_CorThreeCases_last : (corBench 9).readInput 9 (text "c1") = .ok 0x1AC#9 ∧
    (corBench 9).readInput 4 (text "s") = .ok 9#4 ∧ 1 ≤ (9#4).toNat ∧ (9#4).toNat ≤ codewordLength 5 :=
  ⟨rfl, rfl, by decide, by decide⟩

theorem witness_CorThreeCases_beyond : (corBench 10).readInput 9 (text "c1") = .ok 0x1AC#9 ∧
    (corBench 10).readInput 4 (text "s") = .ok 10#4 ∧ codewordLength 5 < (10#4).toNat ∧
    codewordLength 5 < (15#4).toNat := ⟨rfl, rfl, by decide, by decide⟩

theorem witness_CorThreeCases_names : [text "c2", text "e", text "nz", text "bn"].Nodup := by decide

/-- A settled corrector with syndrome `syn`, for every row of R102's table. -/
def settledCorrector (syn : Nat) : State :=
  (bench []).driveErrorCorrector (.named (text "c2")) (BitVec.ofNat (codewordLength 5) 0x12E) (BitVec.ofNat (computeRedundancy 5) syn)

theorem settledCorrector_inv (syn : Nat) : (settledCorrector syn).Inv where
  encoders _ h := absurd h List.not_mem_nil
  syndromeGenerators _ h := absurd h List.not_mem_nil
  errorCorrectors _ h := by
    cases List.mem_singleton.mp h
    exact ⟨5, BitVec.ofNat (codewordLength 5) 0x12E, BitVec.ofNat (computeRedundancy 5) syn, rfl, rfl⟩
  decoders _ h := absurd h List.not_mem_nil
  names := List.nodup_nil
  wires := ⟨List.nodup_nil, List.nodup_nil, List.nodup_singleton _, List.nodup_nil⟩

/-- A corrector in each row of the table: syndromes 0, N = 9 and N + 1. -/
theorem witness_CorrectorStatusTable : (settledCorrector 10).Inv ∧
    (settledCorrector 0).errorCorrectors.map (·.ports.errorPosition) = [⟨4, 0#4⟩] ∧
    (settledCorrector 9).errorCorrectors.map (·.ports.errorPosition) = [⟨4, 9#4⟩] ∧
    (settledCorrector 10).errorCorrectors.map (·.ports.errorPosition) = [⟨4, 10#4⟩] :=
  ⟨settledCorrector_inv 10, rfl, rfl, rfl⟩

/-- Both clauses of PairedCorrectionIsValid: syndromes 0 and 10 of vectors of length 9. -/
theorem witness_PairedCorrectionIsValid : Paired 5 0x1AB#9 0#4 ∧ Paired 5 0x12E#9 10#4 ∧
    (0#4).toNat ≤ codewordLength 5 ∧ codewordLength 5 < (10#4).toNat := ⟨rfl, rfl, by decide, by decide⟩

theorem witness_DecReadsDataPositions : isElaborable 8 (bench [named "c2" 12 0xA27]).maxM = true ∧
    (bench [named "c2" 12 0xA27]).readInput 12 (text "c2") = .ok 0xA27#12 ∧ (1 ≤ 8 ∧ 8 ≤ 8) ∧
    (1 ≤ 12 ∧ 12 ≤ codewordLength 8 ∧ isPow2 12 = false) := ⟨rfl, rfl, by decide, by decide⟩

/-- 95_test_vectors.md 2.5: 0x62 is 0x66 with position 3, d1, wrong. -/
theorem witness_DecPassesErrorsThrough : isElaborable 4 (bench [named "c2" 7 0x62]).maxM = true ∧ 1 ≤ 1 ∧ 1 ≤ 4 ∧
    (bench [named "c2" 7 0x62]).readInput 7 (text "c2") = .ok (0x66#7 ^^^ oneHot 7 (dpos 7 1)) :=
  ⟨rfl, by decide, by decide, rfl⟩

/-- 95_test_vectors.md 2.5: 0x66 and 0x6D differ only at the parity positions 1, 2 and 4. -/
theorem witness_DecodeIgnoresParityPositions : ∀ i ∈ positions 7, isPow2 i = false →
    bitAt 0x66#7 i = bitAt 0x6D#7 i := by decide

theorem witness_DetcorIsSynThenCor : isElaborable 4 (bench [named "c1" 7 0x62]).maxM = true ∧
    (bench [named "c1" 7 0x62]).readInput 7 (text "c1") = .ok 0x62#7 ∧ text "s" ≠ text "c1" :=
  ⟨rfl, rfl, by decide⟩

/-- 95_test_vectors.md 2.3: 0x66 with position 3, position 1 and position N = 7 flipped. -/
theorem witness_SingleErrorIsCorrected : isElaborable 4 (bench [named "c1" 7 0x62]).maxM = true ∧ 1 ≤ 3 ∧
    3 ≤ codewordLength 4 ∧
    (bench [named "c1" 7 0x62]).readInput (codewordLength 4) (text "c1") =
      .ok (encodeWord 4 0xD#4 ^^^ oneHot _ 3) :=
  ⟨rfl, by decide, by decide, rfl⟩

theorem witness_SingleErrorIsCorrected_ends :
    (bench [named "c1" 7 0x67]).readInput (codewordLength 4) (text "c1") =
      .ok (encodeWord 4 0xD#4 ^^^ oneHot _ 1) ∧
    (bench [named "c1" 7 0x26]).readInput (codewordLength 4) (text "c1") =
      .ok (encodeWord 4 0xD#4 ^^^ oneHot _ 7) := ⟨rfl, rfl⟩

theorem witness_NoErrorIsIdempotent : isElaborable 4 (bench [named "c0" 7 0x66]).maxM = true ∧
    (bench [named "c0" 7 0x66]).readInput 7 (text "c0") = .ok (encodeWord 4 0xD#4) ∧
    (syndromeOf 4 0x65#7).toNat ≤ codewordLength 4 := ⟨rfl, rfl, by decide⟩

/-- P3: two flips, {7, 9}, of M = 5. -/
theorem witness_AnyErrorPatternGivesDefinedOutputs : isElaborable 5 (bench [named "c1" 9 0x0EC]).maxM = true ∧
    (bench [named "c1" 9 0x0EC]).readInput (codewordLength 5) (text "c1") =
      .ok (encodeWord 5 0x15#5 ^^^ BitVec.ofNat _ 0x140) := ⟨rfl, rfl⟩

/-- A corrector of data width 5. -/
def corOfFive : Instr := .cor (text "a") (text "b") (text "c") (text "d") ⟨5, text "c1"⟩ (text "s")

/-- One application of each block, all of M = 5, and a state that drives their operands. -/
def encOfFive : Instr := .enc (text "c0") ⟨5, text "d0"⟩

def synOfFive : Instr := .syn (text "t") ⟨5, text "c1"⟩

def decOfFive : Instr := .dec (text "d2") ⟨5, text "c1"⟩

def drivenBench : State := bench [named "d0" 5 0x15, named "c1" 9 0x1AC, named "s" 4 15]

theorem witness_EveryDrivenBlockCompletes : ∀ i ∈ [encOfFive, synOfFive, corOfFive, decOfFive],
    isElaborable i.width drivenBench.maxM = true ∧
    ∀ p ∈ operandPorts i, ∃ b : BitVec p.1, drivenBench.readInput p.1 p.2 = .ok b := by
  intro i hi
  simp only [List.mem_cons, List.not_mem_nil, or_false] at hi
  rcases hi with rfl | rfl | rfl | rfl
  all_goals
    refine ⟨rfl, fun p hp => ?_⟩
    simp only [operandPorts, encOfFive, synOfFive, corOfFive, decOfFive, List.mem_cons, List.not_mem_nil,
      or_false] at hp
  · subst hp; exact ⟨0x15#5, rfl⟩
  · subst hp; exact ⟨0x1AC#9, rfl⟩
  · rcases hp with rfl | rfl
    · exact ⟨0x1AC#9, rfl⟩
    · exact ⟨15#4, rfl⟩
  · subst hp; exact ⟨0x1AC#9, rfl⟩

theorem witness_NoHardwareNoEvaluation : (Instr.enc (text "c0") ⟨0, text "d0"⟩).width = 0 ∧
    (State.undriven [] [] (some 4)).maxM = some 4 ∧ 4 < corOfFive.width := by decide

theorem witness_ParamElaborates : (State.undriven [] [] (some 5)).maxM = some 5 ∧ 5 < 6 ∧ 1 ≤ 5 ∧ 5 ≤ 5 := by
  decide

/-- In a pipeline of M = 5 (N = 9, R = 4): a codeword, a data word and a syndrome of M = 4, a vector whose width 8 is no
codeword length, literals that do not fit, and a codeword of the right width. -/
def mixedBench : State := bench [named "c" 7 0x66, named "d" 4 0xD, named "s" 3 3, named "v" 8 0xFF,
  (text "h", .literal 0x200), named "c1" 9 0x1AC]

theorem witness_MismatchedPipelinesAreRefused : 4 < 5 ∧ isElaborable 5 mixedBench.maxM = true ∧
    (lookupIn (text "d") mixedBench.values = some (.vec ⟨4, 0xD#4⟩) ∧ Misfits 5 (.vec ⟨4, 0xD#4⟩)) ∧
    (lookupIn (text "c") mixedBench.values = some (.vec ⟨7, 0x66#7⟩) ∧
      Misfits (codewordLength 5) (.vec ⟨7, 0x66#7⟩)) ∧
    (lookupIn (text "v") mixedBench.values = some (.vec ⟨8, 0xFF#8⟩) ∧
      Misfits (codewordLength 5) (.vec ⟨8, 0xFF#8⟩)) ∧
    (mixedBench.readInput 9 (text "c1") = .ok 0x1AC#9 ∧
      lookupIn (text "s") mixedBench.values = some (.vec ⟨3, 3#3⟩) ∧
      Misfits (computeRedundancy 5) (.vec ⟨3, 3#3⟩)) := by
  refine ⟨by decide, rfl, ⟨rfl, ?_⟩, ⟨rfl, ?_⟩, ⟨rfl, ?_⟩, rfl, rfl, ?_⟩ <;> exact of_decide_eq_true (p := _ ≠ _) rfl

/-- 2^9 is the least literal that does not fit in 9 bits. -/
theorem witness_MismatchedPipelinesAreRefused_literal :
    lookupIn (text "h") mixedBench.values = some (.literal 0x200) ∧ Misfits (codewordLength 5) (.literal 0x200) ∧
    ¬ Misfits (codewordLength 5) (.literal 0x1FF) :=
  ⟨rfl, of_decide_eq_true (p := _ ≤ _) rfl, of_decide_eq_true (p := ¬ _ ≤ _) rfl⟩

/-- The channel's two clauses: a literal on the left that does not fit the vector on the right, and a vector on the
right of another width than the one on the left. -/
theorem witness_MismatchedPipelinesAreRefused_channel :
    mixedBench.readOperand (.name (text "c1")) = .ok (.vec ⟨9, 0x1AC#9⟩) ∧
    xorWidth 9 (.literal 0x200) (.vec ⟨9, 0x1AC#9⟩) = 9 ∧ Misfits 9 (.literal 0x200) ∧
    xorWidth 9 (.vec ⟨9, 0x1AC#9⟩) (.vec ⟨7, 0x66#7⟩) = 9 ∧ ¬ Misfits 9 (.vec ⟨9, 0x1AC#9⟩) ∧
    Misfits 9 (.vec ⟨7, 0x66#7⟩) :=
  ⟨rfl, rfl, of_decide_eq_true (p := _ ≤ _) rfl, rfl, of_decide_eq_true (p := ¬ _ ≠ _) rfl,
    of_decide_eq_true (p := _ ≠ _) rfl⟩

theorem witness_UndrivenInputIsRefused : isElaborable 4 State.reset.maxM = true ∧
    (4, text "d0") ∈ operandPorts (.enc (text "c0") ⟨4, text "d0"⟩) ∧
    lookupIn (text "d0") State.reset.values = none ∧
    operandPorts (.enc (text "c0") ⟨4, text "d0"⟩) = [(4, text "d0")] ∧
    lookupIn (text "c1") mixedBench.values = some (.vec ⟨9, 0x1AC#9⟩) ∧
    lookupIn (text "e") mixedBench.values = none := by decide

theorem witness_SingleResultBlocksFrame :
    (nextState (exec (.enc (text "c0") ⟨4, text "d0"⟩) (bench [named "d0" 4 0xD]))).isSome = true ∧
    (nextState (exec (.syn (text "s") ⟨4, text "c0"⟩) (bench [named "c0" 7 0x66]))).isSome = true ∧
    (nextState (exec (.dec (text "d2") ⟨4, text "c0"⟩) (bench [named "c0" 7 0x66]))).isSome = true ∧
    text "d0" ≠ text "c0" := by decide

theorem witness_CorFrame :
    (nextState (exec (.cor (text "c2") (text "e") (text "nz") (text "bn") ⟨5, text "c1"⟩ (text "s"))
      (corBench 9))).isSome = true ∧ text "s" ∉ [text "c2", text "e", text "nz", text "bn"] := by decide

/-- A state with another history than `drivenBench`: other ports, other values, the same operands. -/
def otherHistory : State :=
  { drivenBench with values := named "x" 1 1 :: drivenBench.values }.driveDecoder (.named (text "d2")) 5 0#9

theorem witness_EvaluationsForgetHistory : ∀ i ∈ [encOfFive, synOfFive, corOfFive, decOfFive],
    (∀ p ∈ operandPorts i, drivenBench.readInput p.1 p.2 = otherHistory.readInput p.1 p.2) ∧
    (nextState (exec i drivenBench)).isSome = true ∧ (nextState (exec i otherHistory)).isSome = true := by
  intro i hi
  simp only [List.mem_cons, List.not_mem_nil, or_false] at hi
  rcases hi with rfl | rfl | rfl | rfl
  all_goals
    refine ⟨fun p hp => ?_, by decide, by decide⟩
    simp only [operandPorts, encOfFive, synOfFive, corOfFive, decOfFive, List.mem_cons, List.not_mem_nil,
      or_false] at hp
  · subst hp; rfl
  · subst hp; rfl
  · rcases hp with rfl | rfl <;> rfl
  · subst hp; rfl

/-- Both clauses: a `param` line behind the one in force, and a line that is none. -/
theorem witness_OnlyElaborationChangesParameters :
    parameterOf (running [] "param M = 4\nparam M = 5").program = some 4 ∧
    (nextState (step (running [] "param M = 4\nparam M = 5"))).map (fun t => parameterOf t.program) = some (some 5) ∧
    (nextState (step (running [] "param M = 4\nd0 = 0xD"))).map (fun t => parameterOf t.program) = some (some 4) := by
  decide

theorem witness_ChannelFlipsThePattern : lookupIn (text "c0") (bench [named "c0" 7 0x66]).values
      = some (.vec ⟨codewordLength 4, 0x66#7⟩) ∧
    (bench [named "c0" 7 0x66]).readOperand (.lit (.hex 4)) = .ok (.literal 4) ∧
    onPort (codewordLength 4) (.literal 4) = some 4#7 ∧ 1 ≤ 7 ∧ 7 ≤ 7 := ⟨rfl, rfl, rfl, by decide, by decide⟩

theorem witness_LiteralsOnPorts : onPort 4 (literalValue (.bits [true, false, true, true])) = some 0xD#4 ∧
    0xD < 2 ^ 4 ∧ text "d0" ≠ text "d1" := by decide

theorem witness_DecodeOfEncodedInstruction : corOfFive.wf = true := by decide

theorem witness_DecodeOfEncodedStatement :
    (Statement.channel 4 (text "c1") (text "c0") (.lit (.hex 0x200))).wf = true ∧
    (Statement.channel 4 (text "c1") (text "c0") (.lit (.hex 0x200))).isUnder 4 = true := by decide

theorem witness_DecodedStatementsAreWellFormed :
    decodeStatement 4 (text "d2 = DEC(c2)") = .ok (.block (.dec (text "d2") ⟨4, text "c2"⟩)) := by rfl

/-- The clauses about a decoded line: any statement, a `param` statement, and an application read by `decode`. -/
theorem witness_StepRunsDecodedInstruction :
    (running [] "param M = 4\nc1 = c0 XOR 0x04").program = text "param M = 4" :: text "c1 = c0 XOR 0x04" :: [] ∧
    decodeStatement 0 (text "param M = 4") = .ok (.param 4) ∧ isElaborable 4 State.reset.maxM = true ∧
    decodeStatement 4 (text "c1 = c0 XOR 0x04") = .ok (.channel 4 (text "c1") (text "c0") (.lit (.hex 4))) ∧
    decodeStatement 4 (text "param M = 5") = .ok (.param 5) ∧
    0x0A#8 ∉ text "param M = 4" ∧ 0x0A#8 ∉ text "d2 = DEC(c2)" ∧
    decode (text "param M = 4" ++ 0x0A#8 :: text "d2 = DEC(c2)") = .ok (.dec (text "d2") ⟨4, text "c2"⟩) :=
  ⟨by decide, rfl, rfl, rfl, rfl, by decide, by decide, rfl⟩

/-- The clauses about what runs nothing: a line and a first line that are no statement, a parameter with no hardware, a
statement before any parameter, a blank first line, a program at its end, and no program. -/
theorem witness_StepRunsDecodedInstruction_none :
    decodeStatement 4 (text "d2 = DEC") = .error (.badLiteral (text "DEC")) ∧
    decodeStatement 0 (text "d2 = DEC") = .error (.badLiteral (text "DEC")) ∧
    decodeStatement 0 (text "param M = 0") = .ok (.param 0) ∧
    ((State.undriven [] [text "param M = 4"] (some 3)).maxM = some 3 ∧ 3 < 4) ∧
    decodeStatement 0 (text "d0 = 0xD") = .ok (.literal (text "d0") (.hex 13)) ∧
    decodeStatement 0 (text "  -- nothing") = .ok .blank ∧
    (running [] "param M = 4").program = [text "param M = 4"] ∧ State.reset.program = [] :=
  ⟨rfl, rfl, rfl, by decide, rfl, rfl, by decide, rfl⟩

/-- A state with a settled block meets the invariant, and a statement of it completes. -/
theorem witness_StepKeepsInvariant :
    ({ settledCorrector 9 with program := lines (text "param M = 4\nd0 = 0x15") } : State).Inv ∧
    (nextState (step { settledCorrector 9 with program := lines (text "param M = 4\nd0 = 0x15") })).isSome = true :=
  ⟨⟨fun _ h => absurd h List.not_mem_nil, fun _ h => absurd h List.not_mem_nil,
    (settledCorrector_inv 9).errorCorrectors, fun _ h => absurd h List.not_mem_nil, List.nodup_nil,
    ⟨List.nodup_nil, List.nodup_nil, List.nodup_singleton _, List.nodup_nil⟩⟩, by decide⟩

/-! ## Instances (R110) and their input changes (R102) -/

/-- Two encoders, of M = 4 and M = 5, on data words of their own. -/
def twoEncoders : List Instr := [.enc (text "c0") ⟨4, text "d0"⟩, .enc (text "c1") ⟨5, text "d1"⟩]

def twoWords : State := bench [named "d0" 4 0xD, named "d1" 5 0x15]

/-- 95_test_vectors.md 2.2: 0xD encodes to 0x66 and 0x15 of M = 5 to 0x1AC; both encoders keep their ports. -/
theorem test_two_encoders : (nextState (execAll twoEncoders twoWords)).map (fun t => t.encoders.map Wired.ports)
    = some [⟨⟨4, 0xD#4⟩, ⟨7, 0x66#7⟩⟩, ⟨⟨5, 0x15#5⟩, ⟨9, 0x1AC#9⟩⟩] := by decide

/-- The corrector on c2 has syndrome 10 and both flags set; its next inputs, with syndrome 0, replace them, and no other
corrector comes about. -/
theorem test_next_input_replaces_status :
    (nextState (exec (.cor (text "c2") (text "e") (text "nz") (text "bn") ⟨5, text "c1"⟩ (text "s"))
      { settledCorrector 10 with values := [named "c1" 9 0x1AC, named "s" 4 0] })).map
        (fun t => t.errorCorrectors.map Wired.ports)
    = some [⟨⟨9, 0x1AC#9⟩, ⟨4, 0#4⟩, ⟨9, 0x1AC#9⟩, ⟨4, 0#4⟩, ⟨1, 0#1⟩, ⟨1, 0#1⟩⟩] := by decide

theorem witness_StepKeepsEveryInstance :
    (nextState (step { settledCorrector 9 with program := lines (text "param M = 4\nparam M = 5") })).map
      State.instanceCount = some 1 ∧
    decodeStatement 4 (text "param M = 5") = .ok (.param 5) := ⟨by decide, rfl⟩

theorem witness_AnyNumberOfInstances :
    (∀ i ∈ twoEncoders, isElaborable i.width twoWords.maxM = true ∧ .named (outputName i) ∉ twoWords.wires ∧
      ∀ p ∈ operandPorts i, ∃ b : BitVec p.1, twoWords.readInput p.1 p.2 = .ok b) ∧
    twoEncoders.Pairwise fun i j =>
      outputName i ≠ outputName j ∧ ∀ n ∈ resultNames i, ∀ p ∈ operandPorts j, p.2 ≠ n := by
  refine ⟨fun i hi => ?_, by decide⟩
  simp only [twoEncoders, List.mem_cons, List.not_mem_nil, or_false] at hi
  rcases hi with rfl | rfl
  all_goals
    refine ⟨rfl, by decide, fun p hp => ?_⟩
    simp only [operandPorts, List.mem_singleton] at hp
    subst hp
  · exact ⟨0xD#4, rfl⟩
  · exact ⟨0x15#5, rfl⟩

theorem witness_IndependentApplicationsCommute :
    Independent (.enc (text "c0") ⟨4, text "d0"⟩) (.enc (text "c1") ⟨5, text "d1"⟩) ∧
    (nextState (execAll twoEncoders twoWords)).isSome = true :=
  ⟨⟨by decide, by decide⟩, by decide⟩

/-- A state in which an instance of each block drives the wire of an application of M = 5, and both of a DETCOR. -/
def drivenWiresBench : State :=
  (((((drivenBench.driveEncoder (.named (text "c0")) 5 0#5).driveSyndromeGenerator (.named (text "t")) 5
    0#9).driveSyndromeGenerator (.inside (text "a")) 5 0#9).driveErrorCorrector (.named (text "a"))
    (BitVec.ofNat (codewordLength 5) 1) (BitVec.ofNat (computeRedundancy 5) 1)).driveDecoder
    (.named (text "d2")) 5 0#9)

theorem witness_InputChangeReplacesPorts :
    drivenWiresBench.WiresUnique ∧
    (∀ i ∈ [encOfFive, synOfFive, corOfFive, decOfFive], (nextState (exec i drivenWiresBench)).isSome = true) ∧
    (nextState (runStatement (.detcor 5 (text "a") (text "b") (text "c") (text "d") (text "c1"))
      drivenWiresBench)).isSome = true ∧
    (.named (text "c0"), 5) ∈ drivenWiresBench.encoders.map (Wired.key EncoderPorts.inputWidth) ∧
    (∀ w ∈ [Wire.named (text "t"), .inside (text "a")],
      (w, codewordLength 5) ∈ drivenWiresBench.syndromeGenerators.map (Wired.key SyndromeGeneratorPorts.inputWidth)) ∧
    (.named (text "a"), codewordLength 5) ∈
      drivenWiresBench.errorCorrectors.map (Wired.key ErrorCorrectorPorts.inputWidth) ∧
    (.named (text "d2"), codewordLength 5) ∈ drivenWiresBench.decoders.map (Wired.key DecoderPorts.inputWidth) := by
  refine ⟨⟨?_, ?_, ?_, ?_⟩, by decide, by decide, by decide, by decide, by decide, by decide⟩ <;>
    unfold KeysUnique <;> decide

end Sys2Proof.Tests
end

section
/-! The least redundancy (R43): what the loop of `computeRedundancy` answers, and O1. -/

namespace Sys2Proof.Proofs
open Sys2Proof Sys2Proof.Machine

/-- The loop ends at a width that meets the bound, if its last candidate `r + fuel` would meet it. -/
theorem redundancyFrom_meets_bound (m fuel r : Nat) (hlast : m + (r + fuel) + 1 ≤ 2 ^ (r + fuel)) :
    m + redundancyFrom m fuel r + 1 ≤ 2 ^ redundancyFrom m fuel r := by
  induction fuel generalizing r with
  | zero => exact hlast
  | succ fuel ih =>
    rw [redundancyFrom]
    split
    next =>
      have hshift : r + (fuel + 1) = r + 1 + fuel := by omega
      exact ih (r + 1) (hshift ▸ hlast)
    next hstop => exact Nat.le_of_not_lt hstop

/-- The loop never passes a candidate that meets the bound. -/
theorem redundancyFrom_le (m fuel r r' : Nat) (hle : r ≤ r') (hmeets : m + r' + 1 ≤ 2 ^ r') :
    redundancyFrom m fuel r ≤ r' := by
  induction fuel generalizing r with
  | zero => exact hle
  | succ fuel ih =>
    rw [redundancyFrom]
    split
    next hgo =>
      have hne : r ≠ r' := by rintro rfl; omega
      exact ih (r + 1) (by omega)
    next => exact hle

/-- The candidate m + 1 always meets the bound, so m + 1 turns of the loop are enough. -/
theorem redundancy_fuel_suffices (m : Nat) : m + (m + 1) + 1 ≤ 2 ^ (m + 1) := by
  have hpow : m < 2 ^ m := Nat.lt_two_pow_self
  rw [Nat.pow_succ]
  omega

theorem computeRedundancy_meets_bound (m : Nat) : m + computeRedundancy m + 1 ≤ 2 ^ computeRedundancy m :=
  redundancyFrom_meets_bound m (m + 1) 0 (by simpa using redundancy_fuel_suffices m)

theorem computeRedundancy_le {m r : Nat} (hmeets : m + r + 1 ≤ 2 ^ r) : computeRedundancy m ≤ r :=
  redundancyFrom_le m (m + 1) 0 r (Nat.zero_le r) hmeets

@[simp] theorem computeRedundancy_zero : computeRedundancy 0 = 0 := rfl

/-- Settles O1: the loop stops at the first candidate that meets the bound, and its fuel reaches one. -/
theorem computeRedundancyIsSmallest : Obligations.ComputeRedundancyIsSmallest :=
  ⟨computeRedundancy_meets_bound, fun _ _ => computeRedundancy_le, computeRedundancy_zero⟩

end Sys2Proof.Proofs
end

section
/-! Powers of two as positions (R11, R44, R49): `isPow2` and `floorLog2` undo `2 ^ k`, and the powers of two in a
codeword are those with exponent below R. -/

namespace Sys2Proof.Proofs
open Sys2Proof Sys2Proof.Machine

@[simp] theorem floorLog2_two_pow (k : Nat) : floorLog2 (2 ^ k) = k := Nat.log2_two_pow

@[simp] theorem isPow2_two_pow (k : Nat) : isPow2 (2 ^ k) = true := by
  simp [isPow2, Nat.one_le_two_pow]

theorem eq_two_pow_of_isPow2 {i : Nat} (h : isPow2 i = true) : i = 2 ^ floorLog2 i := by
  rw [isPow2, Bool.and_eq_true, beq_iff_eq] at h
  exact h.2

theorem isPow2_iff {i : Nat} : isPow2 i = true ↔ ∃ k, i = 2 ^ k :=
  ⟨fun h => ⟨_, eq_two_pow_of_isPow2 h⟩, fun ⟨k, hk⟩ => hk ▸ isPow2_two_pow k⟩

theorem codewordLength_lt_two_pow (m : Nat) : codewordLength m < 2 ^ computeRedundancy m :=
  computeRedundancy_meets_bound m

/-- Every candidate below R fails the bound of R43, so its power of two is a position. -/
theorem two_pow_le_codewordLength {m k : Nat} (hk : k < computeRedundancy m) : 2 ^ k ≤ codewordLength m := by
  have hfails : ¬ m + k + 1 ≤ 2 ^ k := fun hmeets => by
    have := computeRedundancy_le hmeets
    omega
  rw [codewordLength]
  omega

theorem two_pow_le_codewordLength_iff {m k : Nat} : 2 ^ k ≤ codewordLength m ↔ k < computeRedundancy m :=
  ⟨fun h => (Nat.pow_lt_pow_iff_right Nat.one_lt_two).mp (h.trans_lt (codewordLength_lt_two_pow m)),
    two_pow_le_codewordLength⟩

end Sys2Proof.Proofs
end

section
/-! The parity computer (R62 to R64): a group parity counts ones, a parity position is in one group only, and so the
order of the parity writes does not matter; O8 and O10. -/

namespace Sys2Proof.Proofs
open Sys2Proof Sys2Proof.Machine

theorem positions_succ (n : Nat) : positions (n + 1) = positions n ++ [n + 1] := by
  rw [positions, List.range'_1_concat, Nat.add_comm 1 n, positions]

/-- XOR over the positions is 1 exactly when an odd number of them are 1 (R66). -/
theorem xorOver_eq_odd_count (n : Nat) (f : Nat → Bool) :
    xorOver n f = decide (((positions n).filter f).length % 2 = 1) := by
  induction n with
  | zero => rfl
  | succ n ih =>
    rw [xorOver, ih, positions_succ, List.filter_append, List.length_append]
    cases hf : f (n + 1) with
    | false => simp [hf]
    | true =>
      rcases Nat.mod_two_eq_zero_or_one ((positions n).filter f).length with h | h <;>
        simp [hf, Nat.add_mod, h]

/-- Settles O8: a group parity is the XOR over the positions of the group that hold a 1. -/
theorem groupParityCountsOnes : Obligations.GroupParityCountsOnes := by
  intro n v k
  rw [groupParity, xorOver_eq_odd_count, coverageGroup, List.filter_filter]
  simp only [Bool.and_comm]

/-- A parity position is in one group only (R62). -/
theorem inGroup_two_pow (k j : Nat) : inGroup (2 ^ k) j = decide (k = j) := by
  rw [inGroup_eq_testBit, Nat.testBit_two_pow]

/-- Overwriting position 2^k leaves the parity of every other group (R62). -/
theorem groupParity_setParity_of_ne {n k j : Nat} (v : BitVec n) (hkj : k ≠ j) :
    groupParity (setParity v k) j = groupParity v j := by
  refine xorOver_congr fun i h1 h2 => ?_
  rw [bitAt_setParity v k h1 h2]
  split
  next hi => simp [hi, inGroup_two_pow, hkj]
  next => rfl

/-- A position that none of the writes names keeps its bit. -/
theorem bitAt_foldl_setParity_of_forall_ne {n i : Nat} (h1 : 1 ≤ i) (h2 : i ≤ n) (ks : List Nat) (v : BitVec n)
    (hne : ∀ k ∈ ks, i ≠ 2 ^ k) : bitAt (ks.foldl setParity v) i = bitAt v i := by
  induction ks generalizing v with
  | nil => rfl
  | cons k ks ih =>
    obtain ⟨hk, hks⟩ := List.forall_mem_cons.mp hne
    rw [List.foldl_cons, ih _ hks, bitAt_setParity v k h1 h2, if_neg hk]

/-- After writes of different parities, position 2^k holds the parity its group has in the vector they started from:
the writes before that of k leave group k, and those after it leave position 2^k. -/
theorem bitAt_foldl_setParity_two_pow {n k : Nat} (hn : 2 ^ k ≤ n) (ks : List Nat) (v : BitVec n)
    (hnodup : ks.Nodup) (hmem : k ∈ ks) : bitAt (ks.foldl setParity v) (2 ^ k) = groupParity v k := by
  have hpos : 1 ≤ 2 ^ k := Nat.one_le_two_pow
  induction ks generalizing v with
  | nil => cases hmem
  | cons k' ks ih =>
    obtain ⟨hnot, hnodup⟩ := List.nodup_cons.mp hnodup
    rw [List.foldl_cons]
    rcases List.mem_cons.mp hmem with rfl | hmem
    · have hlater : ∀ j ∈ ks, 2 ^ k ≠ 2 ^ j := fun j hj heq =>
        hnot (Nat.pow_right_injective le_rfl heq ▸ hj)
      rw [bitAt_foldl_setParity_of_forall_ne hpos hn ks _ hlater, bitAt_setParity v k hpos hn, if_pos rfl]
    · have hne : k' ≠ k := fun heq => hnot (heq ▸ hmem)
      rw [ih _ hnodup hmem, groupParity_setParity_of_ne v hne]

theorem bitAt_applyParity_two_pow {n k : Nat} (v : BitVec n) (hn : 2 ^ k ≤ n) :
    bitAt (applyParity v) (2 ^ k) = groupParity v k := by
  rw [bitAt_applyParity v Nat.one_le_two_pow hn, isPow2_two_pow, if_pos rfl, floorLog2_two_pow]

theorem bitAt_applyParity_of_not_isPow2 {n i : Nat} (v : BitVec n) (h1 : 1 ≤ i) (h2 : i ≤ n)
    (hi : isPow2 i = false) : bitAt (applyParity v) i = bitAt v i := by
  simp [bitAt_applyParity v h1 h2, hi]

/-- Every order of the R parity writes gives what writing them at once gives (R64). -/
theorem foldl_setParity_eq_applyParity {m : Nat} (v : BitVec (codewordLength m)) {ks : List Nat}
    (hks : ks.Perm (List.range (computeRedundancy m))) : ks.foldl setParity v = applyParity v := by
  have hnodup : ks.Nodup := hks.nodup_iff.mpr List.nodup_range
  refine eq_of_bitAt fun i h1 h2 => ?_
  by_cases hi : isPow2 i = true
  · obtain ⟨k, rfl⟩ := isPow2_iff.mp hi
    have hmem : k ∈ ks := hks.mem_iff.mpr (List.mem_range.mpr (two_pow_le_codewordLength_iff.mp h2))
    rw [bitAt_foldl_setParity_two_pow h2 ks v hnodup hmem, bitAt_applyParity_two_pow v h2]
  · have hne : ∀ k ∈ ks, i ≠ 2 ^ k := fun k _ heq => hi (isPow2_iff.mpr ⟨k, heq⟩)
    rw [bitAt_foldl_setParity_of_forall_ne h1 h2 ks v hne,
      bitAt_applyParity_of_not_isPow2 v h1 h2 (Bool.eq_false_iff.mpr hi)]

/-- Settles O10: a parity write changes its own group only, so each write still sees the parity of the vector they
all started from. -/
theorem applyParityInAnyOrder : Obligations.ApplyParityInAnyOrder :=
  fun _ _ v =>
    ⟨fun _ hk => bitAt_applyParity_two_pow v (two_pow_le_codewordLength hk),
      fun _ h1 h2 hi => bitAt_applyParity_of_not_isPow2 v h1 h2 hi,
      fun _ hks => foldl_setParity_eq_applyParity v hks⟩

end Sys2Proof.Proofs
end

section
/-! The encoder (R68 to R70): where the two cursors of the layout loop stand, the skeleton in closed form, and O12. -/

namespace Sys2Proof.Proofs
open Sys2Proof Sys2Proof.Machine

/-- Where the layout loop stands before position i: 2^a is the least power of two that is not below i, and j is
one more than the number of positions below i that are no power of two (R69). -/
structure LayoutCursors (i a j : Nat) : Prop where
  position_le : i ≤ 2 ^ a
  power_lt : 2 ^ a < 2 * i
  index : j + a = i

theorem LayoutCursors.start : LayoutCursors 1 0 1 := ⟨by decide, by decide, rfl⟩

theorem LayoutCursors.after_parity {a j : Nat} (h : LayoutCursors (2 ^ a) a j) :
    LayoutCursors (2 ^ a + 1) (a + 1) j := by
  have hpos : 1 ≤ 2 ^ a := Nat.one_le_two_pow
  have hindex := h.index
  constructor <;> omega

theorem LayoutCursors.after_data {i a j : Nat} (h : LayoutCursors i a j) (hne : i ≠ 2 ^ a) :
    LayoutCursors (i + 1) a (j + 1) := by
  obtain ⟨hle, hlt, hindex⟩ := h
  constructor <;> omega

/-- A position that is not the next power of two lies strictly between that and the power of two before it. -/
theorem LayoutCursors.floorLog2_succ {i a j : Nat} (h : LayoutCursors i a j) (hne : i ≠ 2 ^ a) :
    floorLog2 i + 1 = a ∧ 2 ^ floorLog2 i < i := by
  obtain ⟨hle, hlt, -⟩ := h
  cases a with
  | zero => omega
  | succ b =>
    have hlog : floorLog2 i = b := (Nat.log2_eq_iff (by omega)).mpr ⟨by omega, by omega⟩
    rw [hlog]
    omega

theorem LayoutCursors.isPow2_eq_false {i a j : Nat} (h : LayoutCursors i a j) (hne : i ≠ 2 ^ a) :
    isPow2 i = false := by
  obtain ⟨-, hlt⟩ := h.floorLog2_succ hne
  exact Bool.eq_false_iff.mpr fun hi => hlt.ne (eq_two_pow_of_isPow2 hi).symm

theorem LayoutCursors.didx_eq {i a j : Nat} (h : LayoutCursors i a j) (hne : i ≠ 2 ^ a) : didx i = j := by
  obtain ⟨hlog, -⟩ := h.floorLog2_succ hne
  have hindex := h.index
  rw [didx]
  omega

theorem layoutFrom_of_parity {m : Nat} (d : BitVec m) (count i j : Nat) :
    (layoutFrom d (count + 1) i i j).1 = false :: (layoutFrom d count (i + 1) (2 * i) j).1 := by
  simp [layoutFrom]

theorem layoutFrom_of_data {m : Nat} (d : BitVec m) (count : Nat) {i pw : Nat} (j : Nat) (hne : i ≠ pw) :
    (layoutFrom d (count + 1) i pw j).1 = bitAt d j :: (layoutFrom d count (i + 1) pw (j + 1)).1 := by
  simp [layoutFrom, hne]

/-- The t-th bit the loop places, from any place where the cursors stand as they should (R69). -/
theorem getD_layoutFrom {m : Nat} (d : BitVec m) {count i a j t : Nat} (h : LayoutCursors i a j) (ht : t < count) :
    (layoutFrom d count i (2 ^ a) j).1.getD t false = (!isPow2 (i + t) && bitAt d (didx (i + t))) := by
  induction count generalizing i a j t with
  | zero => omega
  | succ count ih =>
    by_cases hi : i = 2 ^ a
    · subst hi
      rw [layoutFrom_of_parity, ← Nat.pow_succ']
      cases t with
      | zero => simp
      | succ t =>
        rw [List.getD_cons_succ, ih h.after_parity (by omega), Nat.add_right_comm, Nat.add_assoc]
    · rw [layoutFrom_of_data d count j hi]
      cases t with
      | zero => simp [h.isPow2_eq_false hi, h.didx_eq hi]
      | succ t =>
        rw [List.getD_cons_succ, ih (h.after_data hi) (by omega), Nat.add_right_comm, Nat.add_assoc]

/-- The skeleton in closed form (R69): 0 at a power of two, else the data bit that stands there. -/
theorem bitAt_layout_eq {m i : Nat} (d : BitVec m) (h1 : 1 ≤ i) (h2 : i ≤ codewordLength m) :
    bitAt (layout m d) i = (!isPow2 i && bitAt d (didx i)) := by
  have hplaced := getD_layoutFrom d LayoutCursors.start (show i - 1 < codewordLength m by omega)
  rw [Nat.add_sub_cancel' h1] at hplaced
  exact (bitAt_layout m d h1 h2).trans hplaced

/-- The skeleton holds the placeholder at a power of two, and nothing above N. -/
theorem bitAt_layout_two_pow {m : Nat} (d : BitVec m) (k : Nat) : bitAt (layout m d) (2 ^ k) = false := by
  rcases Nat.lt_or_ge (codewordLength m) (2 ^ k) with habove | hn
  · exact bitAt_above _ habove
  · simp [bitAt_layout_eq d Nat.one_le_two_pow hn]

/-- Settles O12: ENC drives its port and the name to `applyParity` of the skeleton, which overwrites the parity
positions only. -/
theorem encSetsParity : Obligations.EncSetsParity := by
  intro s m dst src d hm hd
  refine ⟨_, encodeWord m d, execEnc_of_ok dst hm hd, ⟨_, mem_settleOn_self (.named dst) _ s.encoders, rfl⟩,
    lookupIn_bindIn_self dst _ _, fun k hk => ?_, fun i h1 h2 hi => ?_, bitAt_layout_two_pow d⟩
  · exact bitAt_applyParity_two_pow (layout m d) (two_pow_le_codewordLength hk)
  · exact bitAt_applyParity_of_not_isPow2 (layout m d) h1 h2 hi

end Sys2Proof.Proofs
end

section
/-! The error corrector (R80 to R83): its one loop is an XOR with the one-hot vector of the syndrome, which is zero
where the syndrome names no position; its flags and result names; O21. -/

namespace Sys2Proof.Proofs
open Sys2Proof Sys2Proof.Machine

/-- The one-hot vector of position p (R65) is the `1 << (p-1)` of R92. -/
theorem oneHot_eq_shiftLeft {w p : Nat} (hp : 1 ≤ p) : oneHot w p = 1#w <<< (p - 1) := by
  refine eq_of_bitAt fun i h1 h2 => ?_
  rw [bitAt_oneHot h1 h2, bitAt, ← BitVec.twoPow_eq, BitVec.getLsbD_twoPow, Bool.eq_iff_iff]
  simp only [beq_iff_eq, Bool.and_eq_true, decide_eq_true_eq]
  omega

/-- A one-hot vector of no position of its width is zero. -/
theorem oneHot_eq_zero {w p : Nat} (hp : p = 0 ∨ w < p) : oneHot w p = 0#w := by
  refine eq_of_bitAt fun i h1 h2 => ?_
  have hne : i ≠ p := by omega
  simp [bitAt_oneHot h1 h2, hne]

/-- The loop of R80 in one equation, for every syndrome. -/
theorem correctedWord_eq_xor_oneHot {n r : Nat} (c : BitVec n) (syn : BitVec r) :
    correctedWord c syn = c ^^^ oneHot n syn.toNat := by
  refine eq_of_bitAt fun i h1 h2 => ?_
  rw [bitAt_correctedWord c syn h1 h2, bitAt_xor, bitAt_oneHot h1 h2, Bool.beq_comm]

/-- A syndrome that is no position leaves the codeword unchanged (R81, R83). -/
theorem correctedWord_eq_self {n r : Nat} (c : BitVec n) {syn : BitVec r} (hsyn : syn.toNat = 0 ∨ n < syn.toNat) :
    correctedWord c syn = c := by
  rw [correctedWord_eq_xor_oneHot, oneHot_eq_zero hsyn, BitVec.xor_zero]

/-- Position s is the only one inverted (R82). -/
theorem bitAt_correctedWord_ne_iff {n r i : Nat} (c : BitVec n) (syn : BitVec r) (h1 : 1 ≤ i) (h2 : i ≤ n) :
    bitAt (correctedWord c syn) i ≠ bitAt c i ↔ i = syn.toNat := by
  rw [bitAt_correctedWord c syn h1 h2, eq_comm (a := i)]
  cases bitAt c i <;> simp

theorem syndromeNonzeroFlag_eq {r : Nat} (syn : BitVec r) :
    syndromeNonzeroFlag syn = if syn.toNat = 0 then 0#1 else 1#1 := by
  apply BitVec.eq_of_toNat_eq
  rw [toNat_syndromeNonzeroFlag]
  split <;> rfl

theorem syndromeBeyondNFlag_eq {r : Nat} (n : Nat) (syn : BitVec r) :
    syndromeBeyondNFlag n syn = if n < syn.toNat then 1#1 else 0#1 := by
  apply BitVec.eq_of_toNat_eq
  rw [toNat_syndromeBeyondNFlag]
  split <;> rfl

/-- Of four different result names each stands for its own output. -/
theorem lookupIn_nameCorrectorOutputs {n1 n2 n3 n4 : Ident} (hnames : [n1, n2, n3, n4].Nodup) (s : State) {n r : Nat}
    (c : BitVec n) (syn : BitVec r) :
    let values := (s.nameCorrectorOutputs n1 n2 n3 n4 c syn).values
    lookupIn n1 values = some (.vec ⟨n, correctedWord c syn⟩) ∧ lookupIn n2 values = some (.vec ⟨r, syn⟩) ∧
      lookupIn n3 values = some (.vec ⟨1, syndromeNonzeroFlag syn⟩) ∧
      lookupIn n4 values = some (.vec ⟨1, syndromeBeyondNFlag n syn⟩) := by
  simp only [List.nodup_cons, List.mem_cons, List.not_mem_nil, or_false, not_or] at hnames
  obtain ⟨⟨h12, h13, h14⟩, ⟨h23, h24⟩, h34, -⟩ := hnames
  simp [lookupIn_bindIn, h12, h13, h14, h23, h24, h34]

/-- Settles O21: COR completes whatever the syndrome is, and the one-hot vector it XORs on is zero but for
1 ≤ s ≤ N. -/
theorem corThreeCases : Obligations.CorThreeCases := by
  intro s m n1 n2 n3 n4 srcC srcS c syn hm hc hs
  refine ⟨_, correctedWord c syn, syndromeNonzeroFlag syn, syndromeBeyondNFlag (codewordLength m) syn,
    execCor_of_ok n1 n2 n3 n4 hm hc hs, ⟨_, mem_settleOn_self (.named n1) _ s.errorCorrectors, rfl⟩,
    fun hnames => lookupIn_nameCorrectorOutputs hnames _ c syn, ?_, ?_, ?_⟩
  · intro hzero
    have hle : ¬ codewordLength m < syn.toNat := by omega
    exact ⟨correctedWord_eq_self c (.inl hzero), by rw [syndromeNonzeroFlag_eq, if_pos hzero],
      by rw [syndromeBeyondNFlag_eq, if_neg hle]⟩
  · intro hpos hle
    have hne : syn.toNat ≠ 0 := by omega
    exact ⟨by rw [correctedWord_eq_xor_oneHot, oneHot_eq_shiftLeft hpos],
      fun i h1 h2 => bitAt_correctedWord_ne_iff c syn h1 h2,
      by rw [syndromeNonzeroFlag_eq, if_neg hne], by rw [syndromeBeyondNFlag_eq, if_neg hle.not_gt]⟩
  · intro hbeyond
    have hne : syn.toNat ≠ 0 := by omega
    exact ⟨correctedWord_eq_self c (.inr hbeyond), by rw [syndromeNonzeroFlag_eq, if_neg hne],
      by rw [syndromeBeyondNFlag_eq, if_pos hbeyond]⟩

end Sys2Proof.Proofs
end

section
/-! The decoder (R50, R87, R88): there are M data positions in a codeword, `dpos` names them without repetition, and so
an error at one of them reaches one data bit; O25. -/

namespace Sys2Proof.Proofs
open Sys2Proof Sys2Proof.Machine

theorem dataPositions_succ (n : Nat) :
    dataPositions (n + 1) = dataPositions n ++ if isPow2 (n + 1) then [] else [n + 1] := by
  rw [dataPositions, positions_succ, List.filter_append, ← dataPositions]
  cases hi : isPow2 (n + 1) <;> simp [hi]

/-- The data cursor of the layout loop counts the data positions it has passed (R69). -/
theorem exists_layoutCursors_dataPositions (n : Nat) :
    ∃ a, LayoutCursors (n + 1) a ((dataPositions n).length + 1) := by
  induction n with
  | zero => exact ⟨0, LayoutCursors.start⟩
  | succ n ih =>
    obtain ⟨a, h⟩ := ih
    rw [dataPositions_succ]
    by_cases hi : n + 1 = 2 ^ a
    · rw [hi] at h ⊢
      exact ⟨a + 1, by simpa using h.after_parity⟩
    · exact ⟨a, by simpa [h.isPow2_eq_false hi] using h.after_data hi⟩

/-- The parity positions of a codeword are R in number (R49), which leaves M data positions. -/
theorem length_dataPositions (m : Nat) : (dataPositions (codewordLength m)).length = m := by
  obtain ⟨a, hle, hlt, hindex⟩ := exists_layoutCursors_dataPositions (codewordLength m)
  have hR : codewordLength m < 2 ^ computeRedundancy m := codewordLength_lt_two_pow m
  have ha_le : a < computeRedundancy m + 1 := by
    refine (Nat.pow_lt_pow_iff_right Nat.one_lt_two).mp ?_
    rw [Nat.pow_succ]
    omega
  have ha_ge : ¬ a < computeRedundancy m := fun ha => by
    have := two_pow_le_codewordLength ha
    omega
  rw [codewordLength] at hindex ⊢
  omega

theorem nodup_dataPositions (n : Nat) : (dataPositions n).Nodup :=
  List.Nodup.filter _ List.nodup_range'

theorem dpos_eq_getElem {n j : Nat} (hj : j - 1 < (dataPositions n).length) :
    dpos n j = (dataPositions n)[j - 1] := by
  rw [dpos, List.getD_eq_getElem _ _ hj]

/-- A data bit stands at a position of the codeword that is no power of two (R50). -/
theorem dpos_mem_dataPositions {m j : Nat} (h1 : 1 ≤ j) (h2 : j ≤ m) :
    dpos (codewordLength m) j ∈ dataPositions (codewordLength m) := by
  have hj : j - 1 < (dataPositions (codewordLength m)).length := by
    rw [length_dataPositions]
    omega
  exact dpos_eq_getElem hj ▸ List.getElem_mem hj

theorem dpos_mem_positions {m j : Nat} (h1 : 1 ≤ j) (h2 : j ≤ m) :
    1 ≤ dpos (codewordLength m) j ∧ dpos (codewordLength m) j ≤ codewordLength m :=
  mem_positions.mp (List.mem_of_mem_filter (dpos_mem_dataPositions h1 h2))

/-- Different data bits stand at different positions (R50). -/
theorem dpos_inj {m i j : Nat} (hi1 : 1 ≤ i) (hi2 : i ≤ m) (hj1 : 1 ≤ j) (hj2 : j ≤ m) :
    dpos (codewordLength m) i = dpos (codewordLength m) j ↔ i = j := by
  have hlen := length_dataPositions m
  rw [dpos_eq_getElem (by omega), dpos_eq_getElem (by omega), (nodup_dataPositions _).getElem_inj_iff]
  omega

theorem decodeWord_xor (m : Nat) (c e : BitVec (codewordLength m)) :
    decodeWord m (c ^^^ e) = decodeWord m c ^^^ decodeWord m e :=
  eq_of_bitAt fun i h1 h2 => by simp [bitAt_decodeWord m _ h1 h2]

/-- The one-hot codeword of data position j decodes to the one-hot data word of j. -/
theorem decodeWord_oneHot_dpos {m j : Nat} (h1 : 1 ≤ j) (h2 : j ≤ m) :
    decodeWord m (oneHot (codewordLength m) (dpos (codewordLength m) j)) = oneHot m j := by
  refine eq_of_bitAt fun i hi1 hi2 => ?_
  obtain ⟨hp1, hp2⟩ := dpos_mem_positions hi1 hi2
  rw [bitAt_decodeWord m _ hi1 hi2, bitAt_oneHot hp1 hp2, bitAt_oneHot hi1 hi2, Bool.eq_iff_iff, beq_iff_eq,
    beq_iff_eq, dpos_inj hi1 hi2 h1 h2]

/-- Settles O25: decoding is linear, and the error at data position j is by itself decoded to the one-hot word of j. -/
theorem decPassesErrorsThrough : Obligations.DecPassesErrorsThrough := by
  intro s m dst src c j hm h1 h2 hc
  refine ⟨_, execDec_of_ok dst hm hc, _, mem_settleOn_self (.named dst) _ s.decoders, rfl, ?_⟩
  rw [decodeWord_xor, decodeWord_oneHot_dpos h1 h2]

end Sys2Proof.Proofs
end

section
/-! The channel (R92): where it completes, the one-hot pattern of a position, and what an application leaves named;
O41. -/

namespace Sys2Proof.Proofs
open Sys2Proof Sys2Proof.Machine

theorem readValue_of_lookupIn {s : State} {n : Ident} {v : Value} (h : lookupIn n s.values = some v) :
    s.readValue n = .ok v := by
  simp [State.readValue, h]

theorem xorValues_of_onPort (s : State) {w : Nat} (dst : Ident) {a b : Value} {x y : BitVec w}
    (ha : onPort w a = some x) (hb : onPort w b = some y) : s.xorValues w dst a b = .next (s.name dst (x ^^^ y)) := by
  simp [State.xorValues, ha, hb]

/-- On a vector the channel completes with every pattern of the vector's width, and names the XOR. -/
theorem execChannel_of_vec {s : State} {w : Nat} (m : Nat) (dst : Ident) {src : Ident} {e : Operand}
    {c pattern : BitVec w} {v : Value} (hsrc : lookupIn src s.values = some (.vec ⟨w, c⟩)) (he : s.readOperand e = .ok v)
    (hv : onPort w v = some pattern) : execChannel m dst src e s = .next (s.name dst (c ^^^ pattern)) := by
  simp only [execChannel, readValue_of_lookupIn hsrc, he]
  exact xorValues_of_onPort s dst (onPort_vec_self w c) hv

/-- The one-hot vector of p holds a 1 at p only (R65). Positions i above the width n are included: they hold nothing. -/
theorem bitAt_oneHot_eq_true_iff {n p i : Nat} (hp : p ≤ n) (hi : 1 ≤ i) : bitAt (oneHot n p) i = true ↔ i = p := by
  rcases Nat.lt_or_ge n i with habove | hin
  · have hne : i ≠ p := by omega
    simp [bitAt_above _ habove, hne]
  · rw [bitAt_oneHot hi hin, beq_iff_eq]

/-- An application leaves every named value but its results. -/
theorem lookupIn_of_exec_next {i : Instr} {s t : State} (h : exec i s = .next t) {n : Ident} (hn : n ∉ resultNames i) :
    lookupIn n t.values = lookupIn n s.values := by
  cases i with
  | enc dst src =>
    obtain ⟨-, d, -, rfl⟩ := execEnc_next h
    exact lookupIn_bindIn_ne (List.ne_of_not_mem_cons hn) _ _
  | syn dst src =>
    obtain ⟨-, c, -, rfl⟩ := execSyn_next h
    exact lookupIn_bindIn_ne (List.ne_of_not_mem_cons hn) _ _
  | cor n1 n2 n3 n4 srcC srcS =>
    obtain ⟨-, c, syn, -, -, rfl⟩ := execCor_next h
    simp only [resultNames, List.mem_cons, List.not_mem_nil, or_false, not_or] at hn
    simp [lookupIn_bindIn, hn]
  | dec dst src =>
    obtain ⟨-, c, -, rfl⟩ := execDec_next h
    exact lookupIn_bindIn_ne (List.ne_of_not_mem_cons hn) _ _

/-- Settles O41: the channel only binds one name, and each application binds its results alone. -/
theorem channelFlipsThePattern : Obligations.ChannelFlipsThePattern :=
  ⟨fun s m dst _ _ _ _ _ hsrc he hv =>
      ⟨_, execChannel_of_vec m dst hsrc he hv, lookupIn_bindIn_self dst _ _, rfl, rfl, rfl, rfl, rfl, rfl,
        fun _ hn => lookupIn_bindIn_ne hn _ s.values⟩,
    fun _ _ _ hp1 hpn hi => ⟨oneHot_eq_shiftLeft hp1, bitAt_oneHot_eq_true_iff hpn hi⟩,
    fun _ _ _ h _ hn => lookupIn_of_exec_next h hn⟩

end Sys2Proof.Proofs
end

section
/-! A block whose inputs are driven settles (R99): an input port carries one vector only, and each application leaves an
instance with that vector and outputs of its ports' widths; O32. -/

namespace Sys2Proof.Proofs
open Sys2Proof Sys2Proof.Machine

/-- Whatever vector is read for an input port is the vector the port is driven to. -/
theorem driven_eq_of_readInput {s : State} {w : Nat} {n : Ident} {b : BitVec w} (hb : s.readInput w n = .ok b) :
    ∀ b' : BitVec w, s.readInput w n = .ok b' → driven b = driven b' :=
  fun _ hb' => congrArg driven (Except.ok.inj (hb.symm.trans hb'))

/-- Settles O32: with its inputs read each application completes, and the instance it settles holds these inputs; the
outputs' widths are those of the block functions' results. -/
theorem everyDrivenBlockCompletes : Obligations.EveryDrivenBlockCompletes := by
  intro s i hm hdriven
  cases i with
  | enc dst src =>
    obtain ⟨d, hd⟩ := hdriven (src.m, src.name) (by simp [operandPorts])
    exact ⟨_, execEnc_of_ok dst hm hd, _, mem_settleOn_self (.named dst) _ s.encoders, driven_eq_of_readInput hd, rfl⟩
  | syn dst src =>
    obtain ⟨c, hc⟩ := hdriven (codewordLength src.m, src.name) (by simp [operandPorts])
    exact ⟨_, execSyn_of_ok dst hm hc, _, mem_settleOn_self (.named dst) _ s.syndromeGenerators,
      driven_eq_of_readInput hc, rfl⟩
  | cor n1 n2 n3 n4 src srcS =>
    obtain ⟨c, hc⟩ := hdriven (codewordLength src.m, src.name) (by simp [operandPorts])
    obtain ⟨syn, hsyn⟩ := hdriven (computeRedundancy src.m, srcS) (by simp [operandPorts])
    exact ⟨_, execCor_of_ok n1 n2 n3 n4 hm hc hsyn, _, mem_settleOn_self (.named n1) _ s.errorCorrectors,
      driven_eq_of_readInput hc, driven_eq_of_readInput hsyn, rfl, rfl, rfl, rfl⟩
  | dec dst src =>
    obtain ⟨c, hc⟩ := hdriven (codewordLength src.m, src.name) (by simp [operandPorts])
    exact ⟨_, execDec_of_ok dst hm hc, _, mem_settleOn_self (.named dst) _ s.decoders, driven_eq_of_readInput hc, rfl⟩

end Sys2Proof.Proofs
end

section
/-! Numerals, literals and names as they are written (R9, R10, R32): reading a written numeral or literal gives it back,
and each is one word of a line. -/

namespace Sys2Proof.Proofs
open Sys2Proof Sys2Proof.Machine

/-! ### Numerals -/

theorem digitValue_digitByte {base d : Nat} (hd : d < base) (hbase : base ≤ 16) :
    digitValue base (digitByte d) = some d := by
  have hlt : d < 16 := by omega
  interval_cases d <;> simp [digitValue, digitByte, isDigit, hd]

/-- The digits of n, read on top of nothing, leave n to read the rest on. -/
theorem readDigits_writeDigits {base : Nat} (hbase : 2 ≤ base) (hle : base ≤ 16) {fuel n : Nat} (hfuel : n < fuel)
    (acc : Text) : readDigits base 0 (writeDigits base fuel n acc) = readDigits base n acc := by
  induction fuel generalizing n acc with
  | zero => omega
  | succ fuel ih =>
    rw [writeDigits]
    split
    next hn => simp [readDigits, digitValue_digitByte hn hle]
    next hn =>
      have hdiv : n / base < fuel := by
        have := Nat.div_lt_self (n := n) (k := base) (by omega) (by omega)
        omega
      rw [ih hdiv, readDigits, digitValue_digitByte (Nat.mod_lt n (by omega)) hle]
      simp only [Nat.div_add_mod']

theorem writeDigits_ne_nil (base fuel n : Nat) (acc : Text) : writeDigits base (fuel + 1) n acc ≠ [] := by
  induction fuel generalizing n acc with
  | zero =>
    rw [writeDigits]
    split <;> simp [writeDigits]
  | succ fuel ih =>
    rw [writeDigits]
    split
    · simp
    · exact ih _ _

theorem readNumeral_of_ne_nil {w : Text} (base : Nat) (hw : w ≠ []) : readNumeral base w = readDigits base 0 w := by
  cases w with
  | nil => exact absurd rfl hw
  | cons b bs => rfl

theorem readNumeral_writeNumeral {base : Nat} (hbase : 2 ≤ base) (hle : base ≤ 16) (n : Nat) :
    readNumeral base (writeNumeral base n) = some n := by
  rw [writeNumeral, readNumeral_of_ne_nil base (writeDigits_ne_nil base n n []),
    readDigits_writeDigits hbase hle (Nat.lt_succ_self n), readDigits]

/-! ### Literals -/

theorem readBits_map_bitByte (bs : List Bool) : readBits (bs.map bitByte) = some bs := by
  induction bs with
  | nil => rfl
  | cons b bs ih => cases b <;> simp [readBits, ih, readBit, bitByte]

theorem writeLiteral_bits (bs : List Bool) : writeLiteral (.bits bs) = 0x22#8 :: (bs.map bitByte ++ [0x22#8]) := rfl

theorem writeLiteral_hex (n : Nat) : writeLiteral (.hex n) = 0x30#8 :: 0x78#8 :: writeNumeral 16 n := rfl

theorem readLiteral_writeLiteral (l : Literal) : readLiteral (writeLiteral l) = .ok l := by
  cases l with
  | hex n =>
    have hread : readHex (writeLiteral (.hex n)) = some (.hex n) := by
      simp [writeLiteral_hex, readHex, readNumeral_writeNumeral]
    simp [readLiteral, hread]
  | bits bs =>
    have hhex : readHex (writeLiteral (.bits bs)) = none := by
      rw [writeLiteral_bits]
      unfold readHex
      split
      next heq =>
        obtain ⟨rfl, -⟩ := List.cons.inj heq
        simp
      next => rfl
    have hquoted : readQuoted (writeLiteral (.bits bs)) = some (.bits bs) := by
      simp [writeLiteral_bits, readQuoted, readBits_map_bitByte]
    simp [readLiteral, hhex, hquoted]

/-- A literal starts with a digit or a quote, and so is no name. -/
theorem isIdent_writeLiteral (l : Literal) : isIdent (writeLiteral l) = false := by
  cases l <;> rfl

theorem readOperand_writeOperand {e : Operand} (he : e.wf = true) : readOperand (writeOperand e) = .ok e := by
  cases e with
  | name n =>
    have hn : isIdent n = true := he
    simp [readOperand, writeOperand, hn]
  | lit l => simp [readOperand, writeOperand, isIdent_writeLiteral, readLiteral_writeLiteral, Except.map]

/-! ### Words -/

/-- One word of a line: not empty, and made of word characters alone. -/
structure IsWord (w : Text) : Prop where
  ne_nil : w ≠ []
  all_wordByte : w.all isWordByte = true

theorem isWordByte_of_isIdentByte {b : Byte} (h : isIdentByte b = true) : isWordByte b = true := by
  simp [isWordByte, h]

theorem isWord_of_all_identByte {w : Text} (hne : w ≠ []) (h : w.all isIdentByte = true) : IsWord w where
  ne_nil := hne
  all_wordByte := List.all_eq_true.mpr fun b hb => isWordByte_of_isIdentByte (List.all_eq_true.mp h b hb)

theorem isWord_of_isIdent {n : Ident} (h : isIdent n = true) : IsWord n :=
  isWord_of_all_identByte (by rintro rfl; cases h) (Laws.all_identByte_of_isIdent h)

theorem isWord_writeNumeral {base : Nat} (hbase : 1 ≤ base) (hle : base ≤ 16) (n : Nat) :
    IsWord (writeNumeral base n) :=
  isWord_of_all_identByte (writeDigits_ne_nil base n n [])
    (Laws.all_identByte_writeDigits hbase hle (n + 1) n rfl)

theorem isWord_writeLiteral (l : Literal) : IsWord (writeLiteral l) := by
  cases l with
  | hex n =>
    have hdigits : (writeNumeral 16 n).all isWordByte = true := (isWord_writeNumeral (by decide) (by decide) n).all_wordByte
    refine ⟨by simp [writeLiteral_hex], ?_⟩
    rw [writeLiteral_hex, List.all_cons, List.all_cons, hdigits]
    rfl
  | bits bs =>
    have hbits : (bs.map bitByte).all isWordByte = true := by
      rw [List.all_map, List.all_eq_true]
      intro b _
      cases b <;> rfl
    refine ⟨by simp [writeLiteral_bits], ?_⟩
    rw [writeLiteral_bits, List.all_cons, List.all_append, hbits]
    rfl

theorem isWord_writeOperand {e : Operand} (he : e.wf = true) : IsWord (writeOperand e) := by
  cases e with
  | name n => exact isWord_of_isIdent he
  | lit l => exact isWord_writeLiteral l

end Sys2Proof.Proofs
end

section
/-! The tokens of the lines that are written (R59, log 11): a written line holds no comment, its words and symbols are cut
where they were put together, and so every statement and every instruction is read back; O43 and O44. -/

namespace Sys2Proof.Proofs
open Sys2Proof Sys2Proof.Machine

/-! ### The bytes of a written line -/

/-- A byte that a written line is made of: a word's character, a space, or one of `=`, `(`, `)`, `,`. Unlike
`Laws.isLineByte` it takes in the quotes of a literal and leaves out the line feed, which ends a line. -/
def isPlainByte (b : Byte) : Bool :=
  isWordByte b || b = 0x20#8 || b = 0x3D#8 || b = 0x28#8 || b = 0x29#8 || b = 0x2C#8

theorem IsWord.all_plainByte {w : Text} (h : IsWord w) : w.all isPlainByte = true :=
  List.all_eq_true.mpr fun b hb => by simp [isPlainByte, List.all_eq_true.mp h.all_wordByte b hb]

theorem all_plainByte_writeUnary {dst f src : Text} (hd : IsWord dst) (hf : IsWord f) (hs : IsWord src) :
    (writeUnary dst f src).all isPlainByte = true := by
  simp only [writeUnary, List.all_append, hd.all_plainByte, hf.all_plainByte, hs.all_plainByte]
  decide

theorem all_plainByte_writeResults {a b c d f : Text} (ha : IsWord a) (hb : IsWord b) (hc : IsWord c) (hd : IsWord d)
    (hf : IsWord f) : (writeResults a b c d f).all isPlainByte = true := by
  simp only [writeResults, List.all_append, ha.all_plainByte, hb.all_plainByte, hc.all_plainByte, hd.all_plainByte,
    hf.all_plainByte]
  decide

theorem all_plainByte_paramLine (m : Nat) : (paramLine m).all isPlainByte = true := by
  have hp : IsWord kwParam := isWord_of_isIdent rfl
  have hM : IsWord kwM := isWord_of_isIdent rfl
  have hm : IsWord (writeNumeral 10 m) := isWord_writeNumeral (by decide) (by decide) m
  simp only [paramLine, List.all_append, hp.all_plainByte, hM.all_plainByte, hm.all_plainByte]
  decide

/-- A plain line holds no comment sign. -/
theorem stripComment_of_plain {t : Text} (h : t.all isPlainByte = true) : stripComment t = t := by
  induction t with
  | nil => rfl
  | cons a t ih =>
    rw [List.all_cons, Bool.and_eq_true] at h
    obtain ⟨ha, ht⟩ := h
    cases t with
    | nil => rfl
    | cons b t =>
      have hne : ¬ (a = 0x2D#8 ∧ b = 0x2D#8) := by
        rintro ⟨rfl, -⟩
        exact absurd ha (by decide)
      rw [stripComment, if_neg hne, ih ht]

theorem lineFeed_not_mem_of_plain {t : Text} (h : t.all isPlainByte = true) : 0x0A#8 ∉ t :=
  fun hmem => absurd (List.all_eq_true.mp h _ hmem) (by decide)

/-! ### Cutting a line into tokens -/

/-- Characters of a word are read on to it. -/
theorem tokensFrom_append (w : Text) {w' : Text} (h : w'.all isWordByte = true) (t : Text) :
    tokensFrom w (w' ++ t) = tokensFrom (w ++ w') t := by
  induction w' generalizing w with
  | nil => simp
  | cons b bs ih =>
    rw [List.all_cons, Bool.and_eq_true] at h
    obtain ⟨hb, hbs⟩ := h
    rw [List.cons_append, tokensFrom, if_pos hb, ih _ hbs, List.append_assoc, List.singleton_append]

theorem IsWord.wordToken {w : Text} (h : IsWord w) : wordToken w = [.word w] := by
  cases w with
  | nil => exact absurd rfl h.ne_nil
  | cons b bs => rfl

theorem tokensFrom_symbol {b : Byte} (hb : isWordByte b = false) (t : Text) :
    tokensFrom [] (b :: t) = symbolToken b ++ tokensFrom [] t := by
  simp [tokensFrom, hb, wordToken]

/-- A word ends where a symbol stands. -/
theorem IsWord.tokensFrom_cons {w : Text} (h : IsWord w) {b : Byte} (hb : isWordByte b = false) (t : Text) :
    tokensFrom [] (w ++ b :: t) = .word w :: tokensFrom [] (b :: t) := by
  rw [tokensFrom_append [] h.all_wordByte, List.nil_append, tokensFrom_symbol hb, tokensFrom, hb, h.wordToken]
  rfl

/-- A word ends where the line does. -/
theorem IsWord.tokensFrom_end {w : Text} (h : IsWord w) : tokensFrom [] w = [.word w] := by
  have := tokensFrom_append [] h.all_wordByte []
  rwa [List.append_nil, List.nil_append, tokensFrom, h.wordToken] at this

@[simp] theorem tokensFrom_nil_nil : tokensFrom [] [] = [] := rfl

@[simp] theorem tokensFrom_space (t : Text) : tokensFrom [] (0x20#8 :: t) = tokensFrom [] t :=
  tokensFrom_symbol rfl t

@[simp] theorem tokensFrom_equals (t : Text) : tokensFrom [] (0x3D#8 :: t) = .equals :: tokensFrom [] t :=
  tokensFrom_symbol rfl t

@[simp] theorem tokensFrom_lparen (t : Text) : tokensFrom [] (0x28#8 :: t) = .lparen :: tokensFrom [] t :=
  tokensFrom_symbol rfl t

@[simp] theorem tokensFrom_rparen (t : Text) : tokensFrom [] (0x29#8 :: t) = .rparen :: tokensFrom [] t :=
  tokensFrom_symbol rfl t

@[simp] theorem tokensFrom_comma (t : Text) : tokensFrom [] (0x2C#8 :: t) = .comma :: tokensFrom [] t :=
  tokensFrom_symbol rfl t

theorem tokensFrom_writeUnary {dst f src : Text} (hd : IsWord dst) (hf : IsWord f) (hs : IsWord src) :
    tokensFrom [] (writeUnary dst f src) = [.word dst, .equals, .word f, .lparen, .word src, .rparen] := by
  simp (disch := decide) [writeUnary, ascii, hd.tokensFrom_cons, hf.tokensFrom_cons, hs.tokensFrom_cons]

theorem tokensFrom_writeResults {a b c d f : Text} (ha : IsWord a) (hb : IsWord b) (hc : IsWord c) (hd : IsWord d)
    (hf : IsWord f) (t : Text) :
    tokensFrom [] (writeResults a b c d f ++ t) =
      [.lparen, .word a, .comma, .word b, .comma, .word c, .comma, .word d, .rparen, .equals, .word f, .lparen]
        ++ tokensFrom [] t := by
  simp (disch := decide) [writeResults, ascii, ha.tokensFrom_cons, hb.tokensFrom_cons, hc.tokensFrom_cons,
    hd.tokensFrom_cons, hf.tokensFrom_cons]

/-! ### Reading a written statement back -/

theorem checkNames_of_isIdent {names : List Text} (h : names.all isIdent = true) (st : Statement) :
    checkNames names st = .ok st := by
  have hnone : names.find? (fun n => !isIdent n) = none := by
    simpa [List.find?_eq_none] using h
  simp [checkNames, hnone]

/-- A plain line is read as its tokens are. -/
theorem decodeStatement_of_plain (m : Nat) {t : Text} (h : t.all isPlainByte = true) {ts : List Token}
    (hts : tokensFrom [] t = ts) (hother : ts.findSome? Token.otherByte = none) :
    decodeStatement m t = parse m ts := by
  have htokens : tokens t = ts := by rw [tokens, stripComment_of_plain h, hts]
  simp only [decodeStatement, htokens, hother]

/-- A `param` line is the same under every parameter. -/
theorem decodeStatement_paramLine (m k : Nat) : decodeStatement m (paramLine k) = .ok (.param k) := by
  have hp : IsWord kwParam := isWord_of_isIdent rfl
  have hM : IsWord kwM := isWord_of_isIdent rfl
  have hk : IsWord (writeNumeral 10 k) := isWord_writeNumeral (by decide) (by decide) k
  have htokens : tokensFrom [] (paramLine k) = [.word kwParam, .word kwM, .equals, .word (writeNumeral 10 k)] := by
    simp (disch := decide) [paramLine, ascii, hp.tokensFrom_cons, hM.tokensFrom_cons, hk.tokensFrom_end]
  rw [decodeStatement_of_plain m (all_plainByte_paramLine k) htokens rfl]
  simp [parse, readNumeral_writeNumeral]

theorem decodeStatement_literal (m : Nat) {dst : Ident} (l : Literal) (hd : isIdent dst = true) :
    decodeStatement m (encodeStatement (.literal dst l)) = .ok (.literal dst l) := by
  have hdst : IsWord dst := isWord_of_isIdent hd
  have hl : IsWord (writeLiteral l) := isWord_writeLiteral l
  have hplain : (encodeStatement (.literal dst l)).all isPlainByte = true := by
    simp only [encodeStatement, List.all_append, hdst.all_plainByte, hl.all_plainByte]
    decide
  have htokens : tokensFrom [] (encodeStatement (.literal dst l)) = [.word dst, .equals, .word (writeLiteral l)] := by
    simp (disch := decide) [encodeStatement, ascii, hdst.tokensFrom_cons, hl.tokensFrom_end]
  rw [decodeStatement_of_plain m hplain htokens rfl]
  simp [parse, readLiteral_writeLiteral, checkNames_of_isIdent, hd, bind, Except.bind]

theorem decodeStatement_channel (m : Nat) {dst src : Ident} {e : Operand} (hd : isIdent dst = true)
    (hs : isIdent src = true) (he : e.wf = true) :
    decodeStatement m (encodeStatement (.channel m dst src e)) = .ok (.channel m dst src e) := by
  have hdst : IsWord dst := isWord_of_isIdent hd
  have hsrc : IsWord src := isWord_of_isIdent hs
  have hxor : IsWord kwXor := isWord_of_isIdent rfl
  have hop : IsWord (writeOperand e) := isWord_writeOperand he
  have hplain : (encodeStatement (.channel m dst src e)).all isPlainByte = true := by
    simp only [encodeStatement, List.all_append, hdst.all_plainByte, hsrc.all_plainByte, hxor.all_plainByte,
      hop.all_plainByte]
    decide
  have htokens : tokensFrom [] (encodeStatement (.channel m dst src e)) =
      [.word dst, .equals, .word src, .word kwXor, .word (writeOperand e)] := by
    simp (disch := decide) [encodeStatement, ascii, hdst.tokensFrom_cons, hsrc.tokensFrom_cons, hxor.tokensFrom_cons,
      hop.tokensFrom_end]
  rw [decodeStatement_of_plain m hplain htokens rfl]
  simp [parse, readOperand_writeOperand he, checkNames_of_isIdent, hd, hs, bind, Except.bind]

/-- The line of a block with one operand and one result is read by the block's mnemonic. -/
theorem decodeStatement_writeUnary (m : Nat) {dst f src : Text} (hd : isIdent dst = true) (hf : isIdent f = true)
    (hs : isIdent src = true) : decodeStatement m (writeUnary dst f src) = readUnary m dst f src := by
  have hdst : IsWord dst := isWord_of_isIdent hd
  have hkw : IsWord f := isWord_of_isIdent hf
  have hsrc : IsWord src := isWord_of_isIdent hs
  exact decodeStatement_of_plain m (all_plainByte_writeUnary hdst hkw hsrc) (tokensFrom_writeUnary hdst hkw hsrc) rfl

theorem isIdent_of_all_pair {a b : Ident} (h : [a, b].all isIdent = true) : isIdent a = true ∧ isIdent b = true := by
  simpa using h

theorem all_plainByte_blockLine {i : Instr} (hi : i.wf = true) : (blockLine i).all isPlainByte = true := by
  cases i with
  | enc dst src =>
    obtain ⟨hd, hs⟩ := isIdent_of_all_pair hi
    exact all_plainByte_writeUnary (isWord_of_isIdent hd) (isWord_of_isIdent rfl) (isWord_of_isIdent hs)
  | syn dst src =>
    obtain ⟨hd, hs⟩ := isIdent_of_all_pair hi
    exact all_plainByte_writeUnary (isWord_of_isIdent hd) (isWord_of_isIdent rfl) (isWord_of_isIdent hs)
  | cor a b c d src srcS =>
    obtain ⟨ha, hb, hc, hd, hsrc, hs⟩ : isIdent a = true ∧ isIdent b = true ∧ isIdent c = true ∧ isIdent d = true ∧
        isIdent src.name = true ∧ isIdent srcS = true := by simpa [Instr.wf, Instr.names] using hi
    have hresults : (writeResults a b c d kwCor).all isPlainByte = true :=
      all_plainByte_writeResults (isWord_of_isIdent ha) (isWord_of_isIdent hb) (isWord_of_isIdent hc)
        (isWord_of_isIdent hd) (isWord_of_isIdent rfl)
    simp only [blockLine, List.all_append, hresults, (isWord_of_isIdent hsrc).all_plainByte,
      (isWord_of_isIdent hs).all_plainByte]
    decide
  | dec dst src =>
    obtain ⟨hd, hs⟩ := isIdent_of_all_pair hi
    exact all_plainByte_writeUnary (isWord_of_isIdent hd) (isWord_of_isIdent rfl) (isWord_of_isIdent hs)

theorem decodeStatement_blockLine {i : Instr} (hi : i.wf = true) :
    decodeStatement i.width (blockLine i) = .ok (.block i) := by
  have hnames : i.names.all isIdent = true := hi
  cases i with
  | enc dst src =>
    obtain ⟨hd, hs⟩ := isIdent_of_all_pair hnames
    rw [blockLine, decodeStatement_writeUnary _ hd rfl hs]
    exact checkNames_of_isIdent hnames _
  | syn dst src =>
    obtain ⟨hd, hs⟩ := isIdent_of_all_pair hnames
    rw [blockLine, decodeStatement_writeUnary _ hd rfl hs]
    exact checkNames_of_isIdent hnames _
  | cor a b c d src srcS =>
    obtain ⟨ha, hb, hc, hd, hsrc, hs⟩ : isIdent a = true ∧ isIdent b = true ∧ isIdent c = true ∧ isIdent d = true ∧
        isIdent src.name = true ∧ isIdent srcS = true := by simpa [Instr.names] using hnames
    have htokens : tokensFrom [] (blockLine (.cor a b c d src srcS)) =
        [.lparen, .word a, .comma, .word b, .comma, .word c, .comma, .word d, .rparen, .equals, .word kwCor, .lparen,
          .word src.name, .comma, .word srcS, .rparen] := by
      simp (disch := decide) [blockLine, ascii, tokensFrom_writeResults (isWord_of_isIdent ha) (isWord_of_isIdent hb)
        (isWord_of_isIdent hc) (isWord_of_isIdent hd) (isWord_of_isIdent (n := kwCor) rfl),
        (isWord_of_isIdent hsrc).tokensFrom_cons, (isWord_of_isIdent hs).tokensFrom_cons]
    rw [decodeStatement_of_plain _ (all_plainByte_blockLine hi) htokens rfl]
    exact checkNames_of_isIdent hnames _
  | dec dst src =>
    obtain ⟨hd, hs⟩ := isIdent_of_all_pair hnames
    rw [blockLine, decodeStatement_writeUnary _ hd rfl hs]
    exact checkNames_of_isIdent hnames _

theorem decodeStatement_detcor (m : Nat) {a b c d e : Ident} (hwf : (Statement.detcor m a b c d e).wf = true) :
    decodeStatement m (encodeStatement (.detcor m a b c d e)) = .ok (.detcor m a b c d e) := by
  obtain ⟨ha, hb, hc, hd, he⟩ : isIdent a = true ∧ isIdent b = true ∧ isIdent c = true ∧ isIdent d = true ∧
      isIdent e = true := by simpa [Statement.wf] using hwf
  have hplain : (encodeStatement (.detcor m a b c d e)).all isPlainByte = true := by
    have hresults : (writeResults a b c d kwDetcor).all isPlainByte = true :=
      all_plainByte_writeResults (isWord_of_isIdent ha) (isWord_of_isIdent hb) (isWord_of_isIdent hc)
        (isWord_of_isIdent hd) (isWord_of_isIdent rfl)
    simp only [encodeStatement, List.all_append, hresults, (isWord_of_isIdent he).all_plainByte]
    decide
  have htokens : tokensFrom [] (encodeStatement (.detcor m a b c d e)) =
      [.lparen, .word a, .comma, .word b, .comma, .word c, .comma, .word d, .rparen, .equals, .word kwDetcor, .lparen,
        .word e, .rparen] := by
    simp (disch := decide) [encodeStatement, ascii, tokensFrom_writeResults (isWord_of_isIdent ha) (isWord_of_isIdent hb)
      (isWord_of_isIdent hc) (isWord_of_isIdent hd) (isWord_of_isIdent (n := kwDetcor) rfl),
      (isWord_of_isIdent he).tokensFrom_cons]
  rw [decodeStatement_of_plain m hplain htokens rfl]
  exact checkNames_of_isIdent hwf _

/-- Settles O44: each form of statement is cut into the tokens it was put together from, and its names and literals
are read back. -/
theorem decodeOfEncodedStatement : Obligations.DecodeOfEncodedStatement := by
  intro m st hwf hunder
  cases st with
  | param k => exact decodeStatement_paramLine m k
  | literal dst l => exact decodeStatement_literal m l hwf
  | channel m' dst src e =>
    obtain rfl : m' = m := by simpa [Statement.isUnder] using hunder
    simp only [Statement.wf, Bool.and_eq_true] at hwf
    obtain ⟨⟨hd, hs⟩, he⟩ := hwf
    exact decodeStatement_channel m' hd hs he
  | block i =>
    obtain rfl : i.width = m := by simpa [Statement.isUnder] using hunder
    exact decodeStatement_blockLine hwf
  | detcor m' a b c d e =>
    obtain rfl : m' = m := by simpa [Statement.isUnder] using hunder
    exact decodeStatement_detcor m' hwf
  | blank => rfl

/-! ### The two lines of an instruction -/

theorem lines_of_not_mem {t : Text} (h : 0x0A#8 ∉ t) : lines t = [t] := by
  induction t with
  | nil => rfl
  | cons b bs ih =>
    obtain ⟨hb, hbs⟩ := not_or.mp (List.mem_cons.not.mp h)
    simp [lines, Ne.symm hb, ih hbs]

/-- A line ends where the line feed stands. -/
theorem lines_append_cons {t : Text} (h : 0x0A#8 ∉ t) (rest : Text) : lines (t ++ 0x0A#8 :: rest) = t :: lines rest := by
  induction t with
  | nil => rfl
  | cons b bs ih =>
    obtain ⟨hb, hbs⟩ := not_or.mp (List.mem_cons.not.mp h)
    simp [lines, Ne.symm hb, ih hbs]

/-- Settles O43: the line feed between the two lines is the only one, and each of them is read back. -/
theorem decodeOfEncodedInstruction : Obligations.DecodeOfEncodedInstruction := by
  intro i hi
  have hlines : lines (encode i) = [paramLine i.width, blockLine i] := by
    rw [encode, lines_append_cons (lineFeed_not_mem_of_plain (all_plainByte_paramLine _)),
      lines_of_not_mem (lineFeed_not_mem_of_plain (all_plainByte_blockLine hi))]
  have hparam : decodeParam (paramLine i.width) = .ok i.width := by
    simp [decodeParam, decodeStatement_paramLine]
  have hblock : decodeBlock i.width (blockLine i) = .ok i := by
    simp [decodeBlock, decodeStatement_blockLine hi]
  simp [decode, hlines, hparam, hblock]

end Sys2Proof.Proofs
end

section
/-! What the decoder accepts is well-formed (R59, log 11): every statement but `param` passes `checkNames` and is of the
width in force, which alone decides nothing about a `param` line; O45. -/

namespace Sys2Proof.Proofs
open Sys2Proof Sys2Proof.Machine

theorem checkNames_eq_ok {names : List Text} {st st' : Statement} (h : checkNames names st = .ok st') :
    st' = st ∧ names.all isIdent = true := by
  unfold checkNames at h
  split at h
  · cases h
  next hnone =>
    cases h
    exact ⟨rfl, by simpa [List.find?_eq_none] using hnone⟩

theorem readOperand_wf {w : Text} {e : Operand} (h : readOperand w = .ok e) : e.wf = true := by
  unfold readOperand at h
  split at h
  next hw =>
    cases h
    exact hw
  next =>
    cases hl : readLiteral w with
    | ok l =>
      rw [hl] at h
      cases h
      rfl
    | error e =>
      rw [hl] at h
      cases h

theorem readUnary_eq_ok {m : Nat} {dst f src : Text} {st : Statement} (h : readUnary m dst f src = .ok st) :
    (∀ k, st ≠ .param k) ∧ st.wf = true ∧ st.isUnder m = true := by
  unfold readUnary at h
  split at h
  · obtain ⟨rfl, hnames⟩ := checkNames_eq_ok h
    exact ⟨by simp, hnames, beq_self_eq_true m⟩
  · split at h
    · obtain ⟨rfl, hnames⟩ := checkNames_eq_ok h
      exact ⟨by simp, hnames, beq_self_eq_true m⟩
    · split at h
      · obtain ⟨rfl, hnames⟩ := checkNames_eq_ok h
        exact ⟨by simp, hnames, beq_self_eq_true m⟩
      · cases h

/-- What tokens can be: a `param` statement, whatever the parameter in force, or another statement, well-formed and under
that parameter. The cases are the forms of `parse` in their order. -/
theorem parse_eq_ok {m : Nat} {ts : List Token} {st : Statement} (h : parse m ts = .ok st) :
    (∃ k, st = .param k ∧ ∀ m', parse m' ts = .ok (.param k)) ∨
      (∀ k, st ≠ .param k) ∧ st.wf = true ∧ st.isUnder m = true := by
  unfold parse at h
  split at h
  case h_1 =>
    cases h
    exact .inr ⟨by simp, rfl, rfl⟩
  case h_2 p v n =>
    split at h
    next hkw =>
      split at h
      next k hk =>
        cases h
        exact .inl ⟨k, rfl, fun m' => by simp [parse, hkw, hk]⟩
      next => cases h
    next => cases h
  case h_3 dst l =>
    cases hl : readLiteral l with
    | error e => simp [hl, bind, Except.bind] at h
    | ok l =>
      simp only [hl, bind, Except.bind] at h
      obtain ⟨rfl, hnames⟩ := checkNames_eq_ok h
      exact .inr ⟨by simp, by simpa [Statement.wf] using hnames, rfl⟩
  case h_4 dst src x e =>
    split at h
    · cases he : readOperand e with
      | error e => simp [he, bind, Except.bind] at h
      | ok e =>
        simp only [he, bind, Except.bind] at h
        obtain ⟨rfl, hnames⟩ := checkNames_eq_ok h
        obtain ⟨hd, hs⟩ := isIdent_of_all_pair hnames
        exact .inr ⟨by simp, by simp [Statement.wf, hd, hs, readOperand_wf he], beq_self_eq_true m⟩
    · cases h
  case h_5 => exact .inr (readUnary_eq_ok h)
  case h_6 =>
    split at h
    · obtain ⟨rfl, hnames⟩ := checkNames_eq_ok h
      exact .inr ⟨by simp, hnames, beq_self_eq_true m⟩
    · cases h
  case h_7 =>
    split at h
    · obtain ⟨rfl, hnames⟩ := checkNames_eq_ok h
      exact .inr ⟨by simp, hnames, beq_self_eq_true m⟩
    · cases h
  case h_8 => cases h

theorem decodeStatement_eq_ok {m : Nat} {t : Text} {st : Statement} (h : decodeStatement m t = .ok st) :
    (∃ k, st = .param k ∧ ∀ m', decodeStatement m' t = .ok (.param k)) ∨
      (∀ k, st ≠ .param k) ∧ st.wf = true ∧ st.isUnder m = true := by
  unfold decodeStatement at h ⊢
  split at h
  · cases h
  · exact parse_eq_ok h

/-- Which lines are a `param` statement does not depend on the parameter in force. -/
theorem decodeStatement_param {m k : Nat} {t : Text} (h : decodeStatement m t = .ok (.param k)) (m' : Nat) :
    decodeStatement m' t = .ok (.param k) := by
  obtain ⟨k', heq, hall⟩ | ⟨hne, -, -⟩ := decodeStatement_eq_ok h
  · cases heq
    exact hall m'
  · exact absurd rfl (hne k)

/-- Settles O45: a `param` statement names nothing, and every other statement passed the check of its names and has the
width in force. -/
theorem decodedStatementsAreWellFormed : Obligations.DecodedStatementsAreWellFormed := by
  intro m line st h
  obtain ⟨k, rfl, -⟩ | ⟨-, hwf, hunder⟩ := decodeStatement_eq_ok h
  · exact ⟨rfl, rfl⟩
  · exact ⟨hwf, hunder⟩

end Sys2Proof.Proofs
end

section
/-! The invariant (R14, R28, R55): every operation that a statement is made of keeps it, so every step does; O48, O49
and O50. -/

namespace Sys2Proof.Proofs
open Sys2Proof Sys2Proof.Machine

section
variable {s : State}

theorem inv_bind (h : s.Inv) (n : Ident) (v : Value) : (s.bind n v).Inv where
  encoders := h.encoders
  syndromeGenerators := h.syndromeGenerators
  errorCorrectors := h.errorCorrectors
  decoders := h.decoders
  names := h.names.bind n v
  wires := ⟨h.wires.encoders, h.wires.syndromeGenerators, h.wires.errorCorrectors, h.wires.decoders⟩

theorem inv_name (h : s.Inv) (n : Ident) {w : Nat} (v : BitVec w) : (s.name n v).Inv := inv_bind h n _

theorem inv_nameCorrectorOutputs (h : s.Inv) (n1 n2 n3 n4 : Ident) {n r : Nat} (c : BitVec n) (syn : BitVec r) :
    (s.nameCorrectorOutputs n1 n2 n3 n4 c syn).Inv :=
  inv_name (inv_name (inv_name (inv_name h n1 _) n2 _) n3 _) n4 _

theorem inv_program (h : s.Inv) (ls : List Text) : State.Inv { s with program := ls } where
  encoders := h.encoders
  syndromeGenerators := h.syndromeGenerators
  errorCorrectors := h.errorCorrectors
  decoders := h.decoders
  names := h.names
  wires := ⟨h.wires.encoders, h.wires.syndromeGenerators, h.wires.errorCorrectors, h.wires.decoders⟩

variable {m : Nat} (h : s.Inv) (hm : isElaborable m s.maxM = true) (w : Wire)
include h hm

theorem inv_driveEncoder (d : BitVec m) : (s.driveEncoder w m d).Inv where
  encoders := forall_ports_settleOn h.encoders ⟨m, d, hm, rfl⟩
  syndromeGenerators := h.syndromeGenerators
  errorCorrectors := h.errorCorrectors
  decoders := h.decoders
  names := h.names
  wires := ⟨h.wires.encoders.settleOn w _, h.wires.syndromeGenerators, h.wires.errorCorrectors, h.wires.decoders⟩

theorem inv_driveSyndromeGenerator (c : BitVec (codewordLength m)) : (s.driveSyndromeGenerator w m c).Inv where
  encoders := h.encoders
  syndromeGenerators := forall_ports_settleOn h.syndromeGenerators ⟨m, c, hm, rfl⟩
  errorCorrectors := h.errorCorrectors
  decoders := h.decoders
  names := h.names
  wires := ⟨h.wires.encoders, h.wires.syndromeGenerators.settleOn w _, h.wires.errorCorrectors, h.wires.decoders⟩

theorem inv_driveErrorCorrector (c : BitVec (codewordLength m)) (syn : BitVec (computeRedundancy m)) :
    (s.driveErrorCorrector w c syn).Inv where
  encoders := h.encoders
  syndromeGenerators := h.syndromeGenerators
  errorCorrectors := forall_ports_settleOn h.errorCorrectors ⟨m, c, syn, hm, rfl⟩
  decoders := h.decoders
  names := h.names
  wires := ⟨h.wires.encoders, h.wires.syndromeGenerators, h.wires.errorCorrectors.settleOn w _, h.wires.decoders⟩

theorem inv_driveDecoder (c : BitVec (codewordLength m)) : (s.driveDecoder w m c).Inv where
  encoders := h.encoders
  syndromeGenerators := h.syndromeGenerators
  errorCorrectors := h.errorCorrectors
  decoders := forall_ports_settleOn h.decoders ⟨m, c, hm, rfl⟩
  names := h.names
  wires := ⟨h.wires.encoders, h.wires.syndromeGenerators, h.wires.errorCorrectors, h.wires.decoders.settleOn w _⟩

end

theorem exec_keeps_inv {i : Instr} {s t : State} (h : s.Inv) (hi : exec i s = .next t) : t.Inv := by
  cases i with
  | enc dst src =>
    obtain ⟨hm, d, -, rfl⟩ := execEnc_next hi
    exact inv_name (inv_driveEncoder h hm _ d) dst _
  | syn dst src =>
    obtain ⟨hm, c, -, rfl⟩ := execSyn_next hi
    exact inv_name (inv_driveSyndromeGenerator h hm _ c) dst _
  | cor n1 n2 n3 n4 src srcS =>
    obtain ⟨hm, c, syn, -, -, rfl⟩ := execCor_next hi
    exact inv_nameCorrectorOutputs (inv_driveErrorCorrector h hm _ c syn) n1 n2 n3 n4 c syn
  | dec dst src =>
    obtain ⟨hm, c, -, rfl⟩ := execDec_next hi
    exact inv_name (inv_driveDecoder h hm _ c) dst _

theorem runStatement_keeps_inv {st : Statement} {s t : State} (h : s.Inv) (hst : runStatement st s = .next t) :
    t.Inv := by
  cases st with
  | param m =>
    obtain ⟨-, rfl⟩ := execParam_next hst
    exact h
  | literal dst l =>
    cases hst
    exact inv_bind h dst _
  | channel m dst src e =>
    obtain ⟨w, a, b, x, y, -, -, -, -, -, rfl⟩ := execChannel_next hst
    exact inv_name h dst _
  | block i => exact exec_keeps_inv h hst
  | detcor m n1 n2 n3 n4 src =>
    obtain ⟨hm, c, -, rfl⟩ := execDetcor_next hst
    exact inv_nameCorrectorOutputs
      (inv_driveErrorCorrector (inv_driveSyndromeGenerator h hm _ c) hm _ c (syndromeOf m c)) n1 n2 n3 n4 c _
  | blank =>
    cases hst
    exact h

/-- Settles O48: a step takes lines off the program and makes at most one statement, and both keep the invariant. -/
theorem stepKeepsInvariant : Obligations.StepKeepsInvariant := by
  intro s t h hstep
  obtain ⟨-, rfl⟩ | ⟨header, rest, -, -, rfl⟩ | ⟨header, rest, m, -, -, hunder⟩ := step_next hstep
  · exact h
  · exact inv_program h rest
  · obtain ⟨-, ⟨-, rfl⟩ | ⟨line, rest, st, -, -, hst⟩⟩ := stepUnder_next hunder
    · exact h
    · exact runStatement_keeps_inv (inv_program h _) hst

/-- Settles O49: at power-up there is no instance and no name. -/
theorem resetMeetsInvariant : Obligations.ResetMeetsInvariant where
  encoders _ hi := by cases hi
  syndromeGenerators _ hi := by cases hi
  errorCorrectors _ hi := by cases hi
  decoders _ hi := by cases hi
  names := List.nodup_nil
  wires := ⟨List.nodup_nil, List.nodup_nil, List.nodup_nil, List.nodup_nil⟩

/-- Settles O50: every list of the state at power-up is empty. -/
theorem resetDrivesNothing : Obligations.ResetDrivesNothing := ⟨rfl, rfl, rfl, rfl, rfl, rfl⟩

end Sys2Proof.Proofs
end

section
/-! What every statement leaves alone (R20, R41, R110): only the instances it drives change their ports, and only a `param`
statement changes the parameter; O37, O38, O40 and O51. -/

namespace Sys2Proof.Proofs
open Sys2Proof Sys2Proof.Machine

section
variable {ks : List (Wire × Nat)} {w : Wire} {m : Nat} (s : State)

theorem stay_driveEncoder (hk : (w, m) ∈ ks) (d : BitVec m) :
    Stay EncoderPorts.inputWidth ks s.encoders (s.driveEncoder w m d).encoders :=
  stay_settleOn hk s.encoders

theorem stay_driveSyndromeGenerator (hk : (w, codewordLength m) ∈ ks) (c : BitVec (codewordLength m)) :
    Stay SyndromeGeneratorPorts.inputWidth ks s.syndromeGenerators (s.driveSyndromeGenerator w m c).syndromeGenerators :=
  stay_settleOn (width := SyndromeGeneratorPorts.inputWidth) (p := ⟨driven c, driven (syndromeOf m c)⟩) hk _

theorem stay_driveErrorCorrector {n r : Nat} (hk : (w, n) ∈ ks) (c : BitVec n) (syn : BitVec r) :
    Stay ErrorCorrectorPorts.inputWidth ks s.errorCorrectors (s.driveErrorCorrector w c syn).errorCorrectors :=
  stay_settleOn hk s.errorCorrectors

theorem stay_driveDecoder (hk : (w, codewordLength m) ∈ ks) (c : BitVec (codewordLength m)) :
    Stay DecoderPorts.inputWidth ks s.decoders (s.driveDecoder w m c).decoders :=
  stay_settleOn (width := DecoderPorts.inputWidth) (p := ⟨driven c, driven (decodeWord m c)⟩) hk _

end

theorem exec_instancesStay {i : Instr} {s t : State} (h : exec i s = .next t) :
    s.InstancesStay [(.named (outputName i), firstInputWidth i)] t := by
  cases i with
  | enc dst src =>
    obtain ⟨-, d, -, rfl⟩ := execEnc_next h
    exact ⟨stay_driveEncoder s (List.mem_singleton_self _) d, .refl .., .refl .., .refl ..⟩
  | syn dst src =>
    obtain ⟨-, c, -, rfl⟩ := execSyn_next h
    exact ⟨.refl .., stay_driveSyndromeGenerator s (List.mem_singleton_self _) c, .refl .., .refl ..⟩
  | cor n1 n2 n3 n4 src srcS =>
    obtain ⟨-, c, syn, -, -, rfl⟩ := execCor_next h
    exact ⟨.refl .., .refl .., stay_driveErrorCorrector s (List.mem_singleton_self _) c syn, .refl ..⟩
  | dec dst src =>
    obtain ⟨-, c, -, rfl⟩ := execDec_next h
    exact ⟨.refl .., .refl .., .refl .., stay_driveDecoder s (List.mem_singleton_self _) c⟩

theorem runStatement_instancesStay {st : Statement} {s t : State} (h : runStatement st s = .next t) :
    s.InstancesStay (drivenKeys st) t := by
  cases st with
  | param m =>
    obtain ⟨-, rfl⟩ := execParam_next h
    exact .refl _ _
  | literal dst l =>
    cases h
    exact ⟨.refl .., .refl .., .refl .., .refl ..⟩
  | channel m dst src e =>
    obtain ⟨w, a, b, x, y, -, -, -, -, -, rfl⟩ := execChannel_next h
    exact ⟨.refl .., .refl .., .refl .., .refl ..⟩
  | block i => exact exec_instancesStay h
  | detcor m n1 n2 n3 n4 src =>
    obtain ⟨-, c, -, rfl⟩ := execDetcor_next h
    exact ⟨.refl .., stay_driveSyndromeGenerator s (List.mem_cons_self ..) c,
      stay_driveErrorCorrector s (List.mem_cons_of_mem _ (List.mem_singleton_self _)) c (syndromeOf m c), .refl ..⟩
  | blank =>
    cases h
    exact .refl _ _

/-- Settles O51: a step that makes no statement leaves every instance, and one that makes a statement leaves all but
those the statement drives. -/
theorem stepKeepsEveryInstance : Obligations.StepKeepsEveryInstance := by
  intro s t hstep
  obtain ⟨-, rfl⟩ | ⟨header, rest, -, -, rfl⟩ | ⟨header, ls, m, hprog, hheader, hunder⟩ := step_next hstep
  · exact .inl (.refl _ _)
  · exact .inl ⟨.refl .., .refl .., .refl .., .refl ..⟩
  · obtain ⟨-, ⟨-, rfl⟩ | ⟨line, rest, st, rfl, hline, hst⟩⟩ := stepUnder_next hunder
    · exact .inl (.refl _ _)
    · obtain ⟨he, hs, hc, hd⟩ := runStatement_instancesStay hst
      exact .inr ⟨header, line, rest, m, st, hprog, hheader, hline, he, hs, hc, hd⟩

/-- Settles O37: each of the three drives one instance of its own block and binds one name. -/
theorem singleResultBlocksFrame : Obligations.SingleResultBlocksFrame := by
  refine ⟨fun s t m dst src h => ?_, fun s t m dst src h => ?_, fun s t m dst src h => ?_⟩
  · obtain ⟨-, d, -, rfl⟩ := execEnc_next h
    exact ⟨stay_driveEncoder s (List.mem_singleton_self _) d, rfl, rfl, rfl, rfl, rfl,
      fun n hn => lookupIn_bindIn_ne hn _ _⟩
  · obtain ⟨-, c, -, rfl⟩ := execSyn_next h
    exact ⟨stay_driveSyndromeGenerator s (List.mem_singleton_self _) c, rfl, rfl, rfl, rfl, rfl,
      fun n hn => lookupIn_bindIn_ne hn _ _⟩
  · obtain ⟨-, c, -, rfl⟩ := execDec_next h
    exact ⟨stay_driveDecoder s (List.mem_singleton_self _) c, rfl, rfl, rfl, rfl, rfl,
      fun n hn => lookupIn_bindIn_ne hn _ _⟩

/-- Settles O38: COR drives one error corrector and binds its four names. -/
theorem corFrame : Obligations.CorFrame := by
  intro s t m n1 n2 n3 n4 srcC srcS h
  have hvalues : ∀ n, n ∉ [n1, n2, n3, n4] → lookupIn n t.values = lookupIn n s.values :=
    fun _ hn => lookupIn_of_exec_next h hn
  obtain ⟨-, c, syn, -, -, rfl⟩ := execCor_next h
  exact ⟨stay_driveErrorCorrector s (List.mem_singleton_self _) c syn, rfl, rfl, rfl, rfl, rfl, hvalues⟩

/-! ### The parameter in force -/

theorem parameterOf_of_param {header : Text} {m : Nat} (h : decodeStatement 0 header = .ok (.param m))
    (rest : List Text) : parameterOf (header :: rest) = some m := by
  simp [parameterOf, h]

theorem parameterOf_of_blank {header : Text} (h : decodeStatement 0 header = .ok .blank) (rest : List Text) :
    parameterOf (header :: rest) = parameterOf rest := by
  simp [parameterOf, h]

theorem programAfter_of_ne_param {st : Statement} (hst : ∀ k, st ≠ .param k) (header line : Text) (rest : List Text) :
    programAfter header line rest st = header :: rest := by
  cases st with
  | param k => exact absurd rfl (hst k)
  | _ => rfl

/-- Settles O40: no statement writes the limit, and behind a statement that is no `param` the line in force stays
first. -/
theorem onlyElaborationChangesParameters : Obligations.OnlyElaborationChangesParameters := by
  intro s t hstep
  obtain ⟨-, rfl⟩ | ⟨header, rest, hprog, hblank, rfl⟩ | ⟨header, ls, m, hprog, hheader, hunder⟩ := step_next hstep
  · exact ⟨rfl, .inl rfl⟩
  · exact ⟨rfl, .inl (by rw [hprog, parameterOf_of_blank hblank])⟩
  · obtain ⟨-, ⟨-, rfl⟩ | ⟨line, rest, st, rfl, hline, hst⟩⟩ := stepUnder_next hunder
    · exact ⟨rfl, .inl rfl⟩
    · obtain ⟨hprogram, hmax⟩ := runStatement_keeps hst
      refine ⟨hmax, ?_⟩
      by_cases hparam : ∃ k, st = .param k
      · obtain ⟨k, rfl⟩ := hparam
        obtain ⟨-, rfl⟩ := execParam_next hst
        exact .inr ⟨header, line, rest, m, k, hprog, hheader, hline, rfl,
          parameterOf_of_param (decodeStatement_param hline 0) rest, rfl, rfl, rfl, rfl⟩
      · left
        rw [hprogram, hprog, programAfter_of_ne_param (not_exists.mp hparam), parameterOf_of_param hheader,
          parameterOf_of_param hheader]

end Sys2Proof.Proofs
end

section
/-! What stops an application (R29, R55, R106, R115): hardware first, then the operands in port order; O33, O34, O35 and
O36. -/

namespace Sys2Proof.Proofs
open Sys2Proof Sys2Proof.Machine

/-! ### No hardware -/

theorem elaborationRefusal_zero (limit : WidthLimit) : elaborationRefusal 0 limit = some (.zeroDataWidth 0) := rfl

theorem elaborationRefusal_of_lt {m l : Nat} {limit : WidthLimit} (hlimit : limit = some l) (hm : l < m) :
    elaborationRefusal m limit = some (.dataWidthTooLarge m) := by
  have hne : m ≠ 0 := by omega
  simp [elaborationRefusal, hlimit, hm, hne]

section
variable {s : State} {m : Nat} {r : Refusal}

theorem exec_of_refusal {i : Instr} (h : elaborationRefusal i.width s.maxM = some r) : exec i s = .refused r := by
  cases i <;> exact onHardware_of_refusal h _

theorem execDetcor_of_refusal (h : elaborationRefusal m s.maxM = some r) (n1 n2 n3 n4 src : Ident) :
    execDetcor m n1 n2 n3 n4 src s = .refused r :=
  onHardware_of_refusal h _

theorem execParam_of_refusal (h : elaborationRefusal m s.maxM = some r) : execParam m s = .refused r := by
  simp [execParam, h]

theorem execParam_of_elaborable (h : isElaborable m s.maxM = true) : execParam m s = .next s := by
  simp [execParam, elaborationRefusal_eq_none.mpr h]

end

/-- Settles O33: the refusal of the elaboration is that of every application. -/
theorem noHardwareNoEvaluation : Obligations.NoHardwareNoEvaluation := by
  refine fun s m => ⟨?_, fun l hlimit hm => ?_⟩
  · rintro rfl
    have hrefused := elaborationRefusal_zero s.maxM
    exact ⟨fun i hi => exec_of_refusal (hi ▸ hrefused), execDetcor_of_refusal hrefused⟩
  · have hrefused := elaborationRefusal_of_lt hlimit hm
    exact ⟨fun i hi => exec_of_refusal (hi ▸ hrefused), execDetcor_of_refusal hrefused⟩

/-- Settles O34: `param` answers the refusal of the elaboration or the state as it is. -/
theorem paramElaborates : Obligations.ParamElaborates := by
  refine fun s m => ⟨?_, fun l hlimit hm => ?_, fun h1 hlimit => ?_⟩
  · rintro rfl
    exact execParam_of_refusal (elaborationRefusal_zero s.maxM)
  · exact execParam_of_refusal (elaborationRefusal_of_lt hlimit hm)
  · exact ⟨s, execParam_of_elaborable (isElaborable_iff.mpr ⟨h1, hlimit⟩), rfl, rfl, rfl, rfl, rfl, rfl, rfl⟩

/-! ### An input that is not driven, or not at its width -/

section
variable {s : State} {m : Nat} {r : Refusal}

/-- An application whose first input port is not driven is refused with the reason of that port (log 19). -/
theorem exec_of_first_input_error {i : Instr} {p : Nat × Ident} {ps : List (Nat × Ident)}
    (hm : isElaborable i.width s.maxM = true) (hports : operandPorts i = p :: ps)
    (hr : s.readInput p.1 p.2 = .error r) : exec i s = .refused r := by
  cases i <;> cases hports <;> exact (onHardware_of_elaborable hm _).trans (withInput_of_error hr _)

theorem execCor_of_syndrome_error {n1 n2 n3 n4 srcC srcS : Ident} {c : BitVec (codewordLength m)}
    (hm : isElaborable m s.maxM = true) (hc : s.readInput (codewordLength m) srcC = .ok c)
    (hr : s.readInput (computeRedundancy m) srcS = .error r) : execCor n1 n2 n3 n4 ⟨m, srcC⟩ srcS s = .refused r := by
  simp [execCor, onHardware_of_elaborable hm, withInput_of_ok hc, withInput_of_error hr]

theorem execDetcor_of_input_error {n1 n2 n3 n4 src : Ident} (hm : isElaborable m s.maxM = true)
    (hr : s.readInput (codewordLength m) src = .error r) : execDetcor m n1 n2 n3 n4 src s = .refused r := by
  simp [execDetcor, onHardware_of_elaborable hm, withInput_of_error hr]

theorem execChannel_of_left_error {dst src : Ident} {e : Operand} (hr : s.readValue src = .error r) :
    execChannel m dst src e s = .refused r := by
  simp [execChannel, hr]

theorem execChannel_of_right_error {dst src : Ident} {e : Operand} {a : Value} (ha : s.readValue src = .ok a)
    (hr : s.readOperand e = .error r) : execChannel m dst src e s = .refused r := by
  simp [execChannel, ha, hr]

theorem execChannel_of_ok {dst src : Ident} {e : Operand} {a b : Value} (ha : s.readValue src = .ok a)
    (hb : s.readOperand e = .ok b) :
    execChannel m dst src e s = s.xorValues (xorWidth (codewordLength m) a b) dst a b := by
  simp [execChannel, ha, hb]

end

theorem xorValues_of_left_misfits {s : State} {w : Nat} {a : Value} (ha : Misfits w a) (dst : Ident) (b : Value) :
    s.xorValues w dst a b = .refused (.widthMismatch w a) := by
  simp [State.xorValues, onPort_eq_none.mpr ha]

theorem xorValues_of_right_misfits {s : State} {w : Nat} {a b : Value} (ha : ¬ Misfits w a) (hb : Misfits w b)
    (dst : Ident) : s.xorValues w dst a b = .refused (.widthMismatch w b) := by
  obtain ⟨x, hx⟩ := Option.ne_none_iff_exists'.mp (onPort_eq_none.not.mpr ha)
  simp [State.xorValues, hx, onPort_eq_none.mpr hb]

theorem readValue_of_unbound {s : State} {n : Ident} (h : lookupIn n s.values = none) :
    s.readValue n = .error (.undrivenInput n) := by
  simp [State.readValue, h]

/-- Where an application completes, there is hardware and every input port is driven at its width. -/
theorem exec_next_driven {i : Instr} {s t : State} (h : exec i s = .next t) :
    isElaborable i.width s.maxM = true ∧ ∀ p ∈ operandPorts i, ∃ b : BitVec p.1, s.readInput p.1 p.2 = .ok b := by
  cases i with
  | enc =>
    obtain ⟨hm, d, hd, -⟩ := execEnc_next h
    exact ⟨hm, List.forall_mem_singleton.mpr ⟨d, hd⟩⟩
  | syn =>
    obtain ⟨hm, c, hc, -⟩ := execSyn_next h
    exact ⟨hm, List.forall_mem_singleton.mpr ⟨c, hc⟩⟩
  | cor =>
    obtain ⟨hm, c, syn, hc, hsyn, -⟩ := execCor_next h
    exact ⟨hm, List.forall_mem_cons.mpr ⟨⟨c, hc⟩, List.forall_mem_singleton.mpr ⟨syn, hsyn⟩⟩⟩
  | dec =>
    obtain ⟨hm, c, hc, -⟩ := execDec_next h
    exact ⟨hm, List.forall_mem_singleton.mpr ⟨c, hc⟩⟩

/-- Settles O36: an application that completes has all inputs driven, and a name with no value drives none. -/
theorem undrivenInputIsRefused : Obligations.UndrivenInputIsRefused := by
  refine ⟨fun s i hm p hp hnone => ⟨fun t hnext => ?_, fun hports => ?_⟩, fun s m n1 n2 n3 n4 src hm hnone => ?_,
    fun s m dst src e hnone => ?_, fun s m dst src n a ha hnone => ?_⟩
  · obtain ⟨-, hdriven⟩ := exec_next_driven hnext
    obtain ⟨b, hb⟩ := hdriven p hp
    rw [readInput_undriven hnone] at hb
    cases hb
  · exact exec_of_first_input_error hm hports (readInput_undriven hnone)
  · exact execDetcor_of_input_error hm (readInput_undriven hnone)
  · exact execChannel_of_left_error (readValue_of_unbound hnone)
  · exact execChannel_of_right_error (readValue_of_lookupIn ha) (readValue_of_unbound hnone)

theorem computeRedundancy_mono {m m' : Nat} (h : m ≤ m') : computeRedundancy m ≤ computeRedundancy m' := by
  have hbound := computeRedundancy_meets_bound m'
  exact computeRedundancy_le (by omega)

/-- N increases strictly with M, since R does not decrease (R115). -/
theorem codewordLength_strictMono {m m' : Nat} (h : m < m') : codewordLength m < codewordLength m' :=
  Nat.add_lt_add_of_lt_of_le h (computeRedundancy_mono h.le)

theorem readInput_of_misfits {s : State} {w : Nat} {n : Ident} {v : Value} (hv : lookupIn n s.values = some v)
    (hw : Misfits w v) : s.readInput w n = .error (.widthMismatch w v) :=
  readInput_mismatch hv (onPort_eq_none.mpr hw)

/-- Settles O35: a value that misfits its port is no vector of the port, so the port's error is what is answered. -/
theorem mismatchedPipelinesAreRefused : Obligations.MismatchedPipelinesAreRefused := by
  refine ⟨fun m m' => codewordLength_strictMono, fun w w' n b => ⟨Iff.rfl, Iff.rfl⟩, fun s m dst src v hm hv hw => ?_,
    fun s m src v hm hv hw => ?_, fun s m n1 n2 n3 n4 srcC srcS c v hm hc hv hw => ?_,
    fun s m dst src e a b ha hb => ⟨fun hw => ?_, fun ha' hw => ?_⟩⟩
  · exact exec_of_first_input_error hm rfl (readInput_of_misfits hv hw)
  · have hr := readInput_of_misfits hv hw
    exact ⟨fun dst => exec_of_first_input_error hm rfl hr, fun dst => exec_of_first_input_error hm rfl hr,
      fun n1 n2 n3 n4 srcS => exec_of_first_input_error hm rfl hr,
      fun n1 n2 n3 n4 => execDetcor_of_input_error hm hr⟩
  · exact execCor_of_syndrome_error hm hc (readInput_of_misfits hv hw)
  · exact (execChannel_of_ok (readValue_of_lookupIn ha) hb).trans (xorValues_of_left_misfits hw dst b)
  · exact (execChannel_of_ok (readValue_of_lookupIn ha) hb).trans (xorValues_of_right_misfits ha' hw dst)

end Sys2Proof.Proofs
end

section
/-! One step, case by case (R59): what the first line of the program and the line behind it decide; O46 and O47. -/

namespace Sys2Proof.Proofs
open Sys2Proof Sys2Proof.Machine

section
variable {s : State} {header : Text} {rest : List Text}

theorem step_of_no_program (h : s.program = []) : step s = .next s := by
  simp [step, h]

theorem step_of_param {m : Nat} (h : s.program = header :: rest) (hd : decodeStatement 0 header = .ok (.param m)) :
    step s = stepUnder m header rest s := by
  simp [step, h, hd]

theorem step_of_blank (h : s.program = header :: rest) (hd : decodeStatement 0 header = .ok .blank) :
    step s = .next { s with program := rest } := by
  simp [step, h, hd]

theorem step_of_other {st : Statement} (h : s.program = header :: rest) (hd : decodeStatement 0 header = .ok st)
    (hparam : ∀ m, st ≠ .param m) (hblank : st ≠ .blank) : step s = .refused (.badStatement .noParameter) := by
  cases st with
  | param m => exact absurd rfl (hparam m)
  | blank => exact absurd rfl hblank
  | _ => simp [step, h, hd]

theorem step_of_error {e : DecodeError} (h : s.program = header :: rest) (hd : decodeStatement 0 header = .error e) :
    step s = .refused (.badStatement e) := by
  simp [step, h, hd]

variable {m : Nat}

theorem stepUnder_of_no_line (hm : isElaborable m s.maxM = true) : stepUnder m header [] s = .next s :=
  onHardware_of_elaborable hm _

theorem stepUnder_of_statement {line : Text} {st : Statement} (hm : isElaborable m s.maxM = true)
    (hd : decodeStatement m line = .ok st) : stepUnder m header (line :: rest) s =
      runStatement st { s with program := programAfter header line rest st } := by
  simp [stepUnder, onHardware_of_elaborable hm, hd]

theorem stepUnder_of_error {line : Text} {e : DecodeError} (hm : isElaborable m s.maxM = true)
    (hd : decodeStatement m line = .error e) : stepUnder m header (line :: rest) s = .refused (.badStatement e) := by
  simp [stepUnder, onHardware_of_elaborable hm, hd]

theorem stepUnder_of_refusal {r : Refusal} (hr : elaborationRefusal m s.maxM = some r) :
    stepUnder m header rest s = .refused r :=
  onHardware_of_refusal hr _

end

theorem decodeParam_eq_ok {t : Text} {m : Nat} (h : decodeParam t = .ok m) : decodeStatement 0 t = .ok (.param m) := by
  unfold decodeParam at h
  split at h
  · cases h
    assumption
  · cases h
  · cases h

theorem decodeBlock_eq_ok {m : Nat} {t : Text} {i : Instr} (h : decodeBlock m t = .ok i) :
    decodeStatement m t = .ok (.block i) := by
  unfold decodeBlock at h
  split at h
  · cases h
    assumption
  · cases h
  · cases h

/-- What two lines that are the words of an application are. -/
theorem decode_eq_ok {header line : Text} {i : Instr} (hh : 0x0A#8 ∉ header) (hl : 0x0A#8 ∉ line)
    (h : decode (header ++ 0x0A#8 :: line) = .ok i) :
    decodeStatement 0 header = .ok (.param i.width) ∧ decodeStatement i.width line = .ok (.block i) := by
  simp only [decode, lines_append_cons hh, lines_of_not_mem hl] at h
  split at h
  next m hparam =>
    have hline := decodeBlock_eq_ok h
    obtain ⟨-, hunder⟩ := decodedStatementsAreWellFormed m line _ hline
    obtain rfl : i.width = m := by simpa [Statement.isUnder] using hunder
    exact ⟨decodeParam_eq_ok hparam, hline⟩
  next => cases h

/-- Settles O47: `step` follows what the two lines decode to, and the words of an application are a `param` line of its
width and its own line. -/
theorem stepRunsDecodedInstruction : Obligations.StepRunsDecodedInstruction := by
  intro s
  refine ⟨?statement, ?words, ?badLine, ?noHardware, ?badHeader, ?noParameter, ?blank, ?noLine, step_of_no_program⟩
  case statement =>
    intro header line rest m st hprog hheader hm hline
    have hrun := (step_of_param hprog hheader).trans (stepUnder_of_statement hm hline)
    refine ⟨fun hne => ?_, ?_⟩
    · rw [hrun, programAfter_of_ne_param hne]
    · rintro k rfl
      exact hrun
  case words =>
    intro header line rest i hprog hh hl hdecode hm
    obtain ⟨hheader, hline⟩ := decode_eq_ok hh hl hdecode
    exact (step_of_param hprog hheader).trans (stepUnder_of_statement hm hline)
  case badLine =>
    intro header line rest m e hprog hheader hm hline
    exact (step_of_param hprog hheader).trans (stepUnder_of_error hm hline)
  case noHardware =>
    intro header rest m hprog hheader
    rw [step_of_param hprog hheader]
    refine ⟨?_, fun l hlimit hm => stepUnder_of_refusal (elaborationRefusal_of_lt hlimit hm)⟩
    rintro rfl
    exact stepUnder_of_refusal (elaborationRefusal_zero _)
  case badHeader => exact fun header rest e => step_of_error
  case noParameter => exact fun header rest st => step_of_other
  case blank => exact fun header rest => step_of_blank
  case noLine => exact fun header m hprog hheader hm => (step_of_param hprog hheader).trans (stepUnder_of_no_line hm)

/-- Settles O46: the decoder run on the four texts. -/
theorem writtenLinesDecode : Obligations.WrittenLinesDecode := ⟨by rfl, by rfl, by rfl, by rfl⟩

end Sys2Proof.Proofs
end

section
/-! Literals on ports (R9, R32): explicit bits list position 1 first, and a hexadecimal literal is its value; O42. -/

namespace Sys2Proof.Proofs
open Sys2Proof Sys2Proof.Machine

theorem getLsbD_ofBitList (w : Nat) (bs : List Bool) (j : Nat) :
    (ofBitList w bs).getLsbD j = (decide (j < w) && bs.getD j false) := by
  simp [ofBitList, ofPositions]

/-- Bit j of the list has weight 2^j (R9). -/
theorem toNat_ofBitList (w : Nat) (bs : List Bool) :
    (ofBitList w bs).toNat = ((List.range w).map fun j => (bs.getD j false).toNat * 2 ^ j).sum := by
  rw [toNat_eq_sum]
  refine congrArg List.sum (List.map_congr_left fun j hj => ?_)
  rw [getLsbD_ofBitList, decide_eq_true (List.mem_range.mp hj), Bool.true_and]

/-- Settles O42: naming a literal binds one name; explicit bits are their own vector and a number that fits is its
value. -/
theorem literalsOnPorts : Obligations.LiteralsOnPorts := by
  refine ⟨fun s dst l => ⟨_, rfl, lookupIn_bindIn_self dst _ _, rfl, rfl, rfl, rfl, rfl, rfl,
    fun n hn => lookupIn_bindIn_ne hn _ _⟩, fun bs b hb => ?_, fun w n hn => ?_⟩
  · obtain rfl : ofBitList bs.length bs = b := by simpa [literalValue] using hb
    exact ⟨fun j h1 h2 => bitAt_ofBitList bs h1 h2, toNat_ofBitList _ bs⟩
  · exact ⟨BitVec.ofNat w n, onPort_eq_some.mpr (.inr ⟨n, rfl, hn, rfl⟩),
      by rw [BitVec.toNat_ofNat, Nat.mod_eq_of_lt hn]⟩

end Sys2Proof.Proofs
end

section
/-! What an application does, in one form for the four blocks: it settles one instance on one wire and binds its results,
and both are fixed by the vectors it reads; O39, O52 and O53. -/

namespace Sys2Proof.Proofs
open Sys2Proof Sys2Proof.Machine

/-! ### Several names -/

/-- Binds names one after another (log 10). -/
def bindAll (bs : List (Ident × Value)) (vs : List (Ident × Value)) : List (Ident × Value) :=
  bs.foldl (fun vs b => bindIn b.1 b.2 vs) vs

/-- After the same bindings a name has the same value, where it had before or is among those bound. -/
theorem lookupIn_bindAll_congr {n : Ident} {bs vs vs' : List (Ident × Value)}
    (h : n ∉ bs.map Prod.fst → lookupIn n vs = lookupIn n vs') :
    lookupIn n (bindAll bs vs) = lookupIn n (bindAll bs vs') := by
  induction bs generalizing vs vs' with
  | nil => exact h List.not_mem_nil
  | cons b bs ih =>
    refine ih fun hbs => ?_
    rw [lookupIn_bindIn, lookupIn_bindIn]
    split
    next => rfl
    next hb => exact h (by simp only [List.map_cons, List.mem_cons, not_or]; exact ⟨hb, hbs⟩)

theorem lookupIn_bindAll_of_not_mem {n : Ident} {bs : List (Ident × Value)} (h : n ∉ bs.map Prod.fst)
    (vs : List (Ident × Value)) : lookupIn n (bindAll bs vs) = lookupIn n vs := by
  induction bs generalizing vs with
  | nil => rfl
  | cons b bs ih =>
    obtain ⟨hb, hbs⟩ := not_or.mp (List.mem_cons.not.mp h)
    exact (ih hbs _).trans (lookupIn_bindIn_ne hb _ _)

/-- Bindings of different names can be made in either order. -/
theorem lookupIn_bindAll_comm {bs bs' : List (Ident × Value)} (h : ∀ n ∈ bs.map Prod.fst, n ∉ bs'.map Prod.fst)
    (n : Ident) (vs : List (Ident × Value)) :
    lookupIn n (bindAll bs (bindAll bs' vs)) = lookupIn n (bindAll bs' (bindAll bs vs)) := by
  by_cases hn : n ∈ bs.map Prod.fst
  · rw [lookupIn_bindAll_of_not_mem (h n hn)]
    exact lookupIn_bindAll_congr fun hnot => absurd hn hnot
  · rw [lookupIn_bindAll_of_not_mem hn]
    exact lookupIn_bindAll_congr fun _ => (lookupIn_bindAll_of_not_mem hn vs).symm

/-! ### An instance of one of the blocks -/

/-- Settles the instances of a block, if the application is one of that block. -/
def settleAny {P : Type} (width : P → Nat) (w : Wire) : Option P → List (Wired P) → List (Wired P)
  | none, l => l
  | some p, l => settleOn width w p l

section
variable {P : Type} {width : P → Nat} {w w' : Wire}

theorem settleAny_of_free {l : List (Wired P)} (h : w ∉ l.map Wired.wire) (o : Option P) :
    settleAny width w o l = l ++ o.toList.map (Wired.mk w) := by
  cases o with
  | none => exact (List.append_nil l).symm
  | some p => exact settleOn_of_free h p

theorem settleAny_comm (hw : w ≠ w') (o o' : Option P) (l : List (Wired P)) :
    (settleAny width w o (settleAny width w' o' l)).Perm (settleAny width w' o' (settleAny width w o l)) := by
  cases o with
  | none => exact .refl _
  | some p =>
    cases o' with
    | none => exact .refl _
    | some p' => exact settleOn_comm hw p p' l

theorem stay_append (ks : List (Wire × Nat)) (l l' : List (Wired P)) : Stay width ks l (l ++ l') where
  keys := by
    rw [List.map_append]
    exact List.prefix_append _ _
  ports _ hi _ := List.mem_append_left l' hi

end

/-- What an application does: the ports of the one instance it settles, the wire of that instance, and the names it
binds. -/
structure Effect where
  wire : Wire
  encoder : Option EncoderPorts := none
  syndromeGenerator : Option SyndromeGeneratorPorts := none
  errorCorrector : Option ErrorCorrectorPorts := none
  decoder : Option DecoderPorts := none
  bindings : List (Ident × Value)

def Effect.run (e : Effect) (s : State) : State :=
  { s with
    encoders := settleAny EncoderPorts.inputWidth e.wire e.encoder s.encoders
    syndromeGenerators := settleAny SyndromeGeneratorPorts.inputWidth e.wire e.syndromeGenerator s.syndromeGenerators
    errorCorrectors := settleAny ErrorCorrectorPorts.inputWidth e.wire e.errorCorrector s.errorCorrectors
    decoders := settleAny DecoderPorts.inputWidth e.wire e.decoder s.decoders
    values := bindAll e.bindings s.values }

/-- How many instances are settled. -/
def Effect.count (e : Effect) : Nat :=
  e.encoder.toList.length + e.syndromeGenerator.toList.length + e.errorCorrector.toList.length + e.decoder.toList.length

/-- The effect is one of the application i: it settles one instance, on the wire of i's first result, and binds i's
results. -/
structure Effect.IsOf (e : Effect) (i : Instr) : Prop where
  wire : e.wire = .named (outputName i)
  names : e.bindings.map Prod.fst = resultNames i
  count : e.count = 1

/-- An application that completes has an effect, and has the same one in every state with hardware where it reads the
same vectors (R14, R26). -/
theorem exec_next_effect {i : Instr} {s t : State} (h : exec i s = .next t) :
    ∃ e : Effect, e.IsOf i ∧ ∀ s' : State, isElaborable i.width s'.maxM = true →
      (∀ p ∈ operandPorts i, s'.readInput p.1 p.2 = s.readInput p.1 p.2) → exec i s' = .next (e.run s') := by
  cases i with
  | enc dst src =>
    obtain ⟨-, d, hd, -⟩ := execEnc_next h
    refine ⟨{ wire := .named dst, encoder := some ⟨driven d, driven (encodeWord src.m d)⟩,
              bindings := [(dst, .vec (driven (encodeWord src.m d)))] }, ⟨rfl, rfl, rfl⟩, fun s' hm hr => ?_⟩
    exact execEnc_of_ok dst hm ((List.forall_mem_singleton.mp hr).trans hd)
  | syn dst src =>
    obtain ⟨-, c, hc, -⟩ := execSyn_next h
    refine ⟨{ wire := .named dst, syndromeGenerator := some ⟨driven c, driven (syndromeOf src.m c)⟩,
              bindings := [(dst, .vec (driven (syndromeOf src.m c)))] }, ⟨rfl, rfl, rfl⟩, fun s' hm hr => ?_⟩
    exact execSyn_of_ok dst hm ((List.forall_mem_singleton.mp hr).trans hc)
  | cor n1 n2 n3 n4 src srcS =>
    obtain ⟨-, c, syn, hc, hsyn, -⟩ := execCor_next h
    refine ⟨{ wire := .named n1
              errorCorrector := some ⟨driven c, driven syn, driven (correctedWord c syn), driven syn,
                driven (syndromeNonzeroFlag syn), driven (syndromeBeyondNFlag (codewordLength src.m) syn)⟩
              bindings := [(n1, .vec (driven (correctedWord c syn))), (n2, .vec (driven syn)),
                (n3, .vec (driven (syndromeNonzeroFlag syn))),
                (n4, .vec (driven (syndromeBeyondNFlag (codewordLength src.m) syn)))] }, ⟨rfl, rfl, rfl⟩,
      fun s' hm hr => ?_⟩
    obtain ⟨hrc, hrs⟩ := List.forall_mem_cons.mp hr
    exact execCor_of_ok n1 n2 n3 n4 hm (hrc.trans hc) ((List.forall_mem_singleton.mp hrs).trans hsyn)
  | dec dst src =>
    obtain ⟨-, c, hc, -⟩ := execDec_next h
    refine ⟨{ wire := .named dst, decoder := some ⟨driven c, driven (decodeWord src.m c)⟩,
              bindings := [(dst, .vec (driven (decodeWord src.m c)))] }, ⟨rfl, rfl, rfl⟩, fun s' hm hr => ?_⟩
    exact execDec_of_ok dst hm ((List.forall_mem_singleton.mp hr).trans hc)

/-! ### The same inputs give the same outputs -/

/-- The same vector is read where the readings agree. -/
theorem eq_of_readInput {s s' : State} {w : Nat} {n : Ident} {b b' : BitVec w}
    (h : s.readInput w n = s'.readInput w n) (hb : s.readInput w n = .ok b) (hb' : s'.readInput w n = .ok b') : b' = b :=
  Except.ok.inj (hb'.symm.trans (h.symm.trans hb))

/-- Settles O39: an application has the same effect in both states. -/
theorem evaluationsForgetHistory : Obligations.EvaluationsForgetHistory := by
  intro s s' t t' i hread h h'
  refine ⟨fun n hn => ?_, ?_⟩
  · obtain ⟨e, he, hrun⟩ := exec_next_effect h
    obtain ⟨hm, -⟩ := exec_next_driven h
    obtain ⟨hm', -⟩ := exec_next_driven h'
    obtain rfl : e.run s = t := Host.Outcome.next.inj ((hrun s hm fun _ _ => rfl).symm.trans h)
    obtain rfl : e.run s' = t' := Host.Outcome.next.inj ((hrun s' hm' fun p hp => (hread p hp).symm).symm.trans h')
    exact lookupIn_bindAll_congr fun hnot => absurd (he.names ▸ hn) hnot
  · cases i with
    | enc dst src =>
      obtain ⟨-, d, hd, rfl⟩ := execEnc_next h
      obtain ⟨-, d', hd', rfl⟩ := execEnc_next h'
      have hr := List.forall_mem_singleton.mp hread
      obtain rfl := eq_of_readInput hr hd hd'
      exact ⟨_, rfl, rfl⟩
    | syn dst src =>
      obtain ⟨-, c, hc, rfl⟩ := execSyn_next h
      obtain ⟨-, c', hc', rfl⟩ := execSyn_next h'
      have hr := List.forall_mem_singleton.mp hread
      obtain rfl := eq_of_readInput hr hc hc'
      exact ⟨_, rfl, rfl⟩
    | cor n1 n2 n3 n4 src srcS =>
      obtain ⟨-, c, syn, hc, hsyn, rfl⟩ := execCor_next h
      obtain ⟨-, c', syn', hc', hsyn', rfl⟩ := execCor_next h'
      obtain ⟨hreadC, hreadS⟩ := List.forall_mem_cons.mp hread
      have hrs := List.forall_mem_singleton.mp hreadS
      obtain rfl := eq_of_readInput hreadC hc hc'
      obtain rfl := eq_of_readInput hrs hsyn hsyn'
      exact ⟨_, rfl, rfl⟩
    | dec dst src =>
      obtain ⟨-, c, hc, rfl⟩ := execDec_next h
      obtain ⟨-, c', hc', rfl⟩ := execDec_next h'
      have hr := List.forall_mem_singleton.mp hread
      obtain rfl := eq_of_readInput hr hc hc'
      exact ⟨_, rfl, rfl⟩

/-! ### Applications that do not read each other's results -/

theorem readInput_congr {s s' : State} {n : Ident} (h : lookupIn n s.values = lookupIn n s'.values) (w : Nat) :
    s.readInput w n = s'.readInput w n := by
  rw [State.readInput, h, State.readInput]

theorem outputName_mem_resultNames (i : Instr) : outputName i ∈ resultNames i := by
  cases i <;> exact List.mem_cons_self ..

theorem resultNames_subset_names (i : Instr) : resultNames i ⊆ i.names := by
  cases i <;> simp [resultNames, Instr.names]

theorem operand_mem_names {i : Instr} {p : Nat × Ident} (hp : p ∈ operandPorts i) : p.2 ∈ i.names := by
  cases i with
  | enc => cases List.mem_singleton.mp hp; simp [Instr.names]
  | syn => cases List.mem_singleton.mp hp; simp [Instr.names]
  | cor =>
    simp only [operandPorts, List.mem_cons, List.not_mem_nil, or_false] at hp
    obtain rfl | rfl := hp <;> simp [Instr.names]
  | dec => cases List.mem_singleton.mp hp; simp [Instr.names]

/-- An application does not change what a port reads under a name that is none of its results. -/
theorem readInput_of_exec_next {i : Instr} {s t : State} (h : exec i s = .next t) {n : Ident}
    (hn : n ∉ resultNames i) (w : Nat) : t.readInput w n = s.readInput w n :=
  readInput_congr (lookupIn_of_exec_next h hn) w

theorem sameInstances_run_comm {e e' : Effect} (hw : e.wire ≠ e'.wire) (s : State) :
    (e.run (e'.run s)).SameInstances (e'.run (e.run s)) where
  encoders := settleAny_comm hw _ _ _
  syndromeGenerators := settleAny_comm hw _ _ _
  errorCorrectors := settleAny_comm hw _ _ _
  decoders := settleAny_comm hw _ _ _

/-- Settles O53: neither application changes what the other reads, so each has the same effect in either order, and the
two effects are on different wires and different names. -/
theorem independentApplicationsCommute : Obligations.IndependentApplicationsCommute := by
  intro s s1 t i j hindep hi hj
  obtain ⟨hij, hji⟩ := hindep
  obtain ⟨ei, hei, hruni⟩ := exec_next_effect hi
  obtain ⟨ej, hej, hrunj⟩ := exec_next_effect hj
  obtain ⟨hmi, -⟩ := exec_next_driven hi
  obtain ⟨hmj, -⟩ := exec_next_driven hj
  obtain ⟨-, hmax⟩ := exec_keeps hi
  have hs1 : ei.run s = s1 := Host.Outcome.next.inj ((hruni s hmi fun _ _ => rfl).symm.trans hi)
  have ht : ej.run s1 = t := Host.Outcome.next.inj ((hrunj s1 hmj fun _ _ => rfl).symm.trans hj)
  have hj' : exec j s = .next (ej.run s) := hrunj s (hmax ▸ hmj) fun p hp =>
    (readInput_of_exec_next hi (fun hmem => hij _ hmem (operand_mem_names hp)) p.1).symm
  have hi' : exec i (ej.run s) = .next (ei.run (ej.run s)) := hruni _ hmi fun p hp =>
    readInput_of_exec_next hj' (fun hmem => hji _ hmem (operand_mem_names hp)) p.1
  have hwire : ei.wire ≠ ej.wire := by
    rw [hei.wire, hej.wire]
    intro heq
    have hout : outputName i = outputName j := Wire.named.inj heq
    exact hij _ (outputName_mem_resultNames i)
      (hout ▸ resultNames_subset_names j (outputName_mem_resultNames j))
  have hnames : ∀ n ∈ ei.bindings.map Prod.fst, n ∉ ej.bindings.map Prod.fst := by
    rw [hei.names, hej.names]
    exact fun n hn hn' => hij n hn (resultNames_subset_names j hn')
  subst hs1 ht
  exact ⟨_, _, hj', hi', sameInstances_run_comm hwire s, fun n => lookupIn_bindAll_comm hnames n s.values, rfl, rfl⟩

/-! ### Applications on free wires -/

theorem mem_wires_append {P : Type} {w w' : Wire} {l : List (Wired P)} {o : Option P} :
    w' ∈ (l ++ o.toList.map (Wired.mk w)).map Wired.wire ↔ w' ∈ l.map Wired.wire ∨ (w' = w ∧ o.isSome = true) := by
  cases o <;> simp

/-- On a wire that no instance drives the effect is one more instance, and every other keeps its ports. -/
theorem run_of_free {e : Effect} {s : State} (hfree : e.wire ∉ s.wires) :
    s.InstancesStay [] (e.run s) ∧ (e.run s).instanceCount = s.instanceCount + e.count ∧
      ∀ w ∈ (e.run s).wires, w ∈ s.wires ∨ w = e.wire := by
  simp only [State.wires, List.mem_append, not_or] at hfree
  obtain ⟨⟨⟨he, hs⟩, hc⟩, hd⟩ := hfree
  have hencoders : (e.run s).encoders = s.encoders ++ e.encoder.toList.map (Wired.mk e.wire) :=
    settleAny_of_free he _
  have hgenerators :
      (e.run s).syndromeGenerators = s.syndromeGenerators ++ e.syndromeGenerator.toList.map (Wired.mk e.wire) :=
    settleAny_of_free hs _
  have hcorrectors : (e.run s).errorCorrectors = s.errorCorrectors ++ e.errorCorrector.toList.map (Wired.mk e.wire) :=
    settleAny_of_free hc _
  have hdecoders : (e.run s).decoders = s.decoders ++ e.decoder.toList.map (Wired.mk e.wire) :=
    settleAny_of_free hd _
  refine ⟨⟨?_, ?_, ?_, ?_⟩, ?_, fun w hw => ?_⟩
  · exact hencoders ▸ stay_append _ _ _
  · exact hgenerators ▸ stay_append _ _ _
  · exact hcorrectors ▸ stay_append _ _ _
  · exact hdecoders ▸ stay_append _ _ _
  · simp only [State.instanceCount, Effect.count, hencoders, hgenerators, hcorrectors, hdecoders, List.length_append,
      List.length_map]
    omega
  · rw [State.wires, hencoders, hgenerators, hcorrectors, hdecoders] at hw
    simp only [List.mem_append, mem_wires_append, State.wires] at hw ⊢
    tauto

/-- Where there is hardware and every operand is driven, an application completes (R99). -/
theorem exec_of_driven {i : Instr} {s : State} (hm : isElaborable i.width s.maxM = true)
    (hdriven : ∀ p ∈ operandPorts i, ∃ b : BitVec p.1, s.readInput p.1 p.2 = .ok b) : ∃ t, exec i s = .next t := by
  obtain ⟨t, ht, -⟩ := everyDrivenBlockCompletes s i hm hdriven
  exact ⟨t, ht⟩

theorem exec_on_free_wire {i : Instr} {s t : State} (h : exec i s = .next t)
    (hfree : .named (outputName i) ∉ s.wires) :
    s.InstancesStay [] t ∧ t.instanceCount = s.instanceCount + 1 ∧
      ∀ w ∈ t.wires, w ∈ s.wires ∨ w = .named (outputName i) := by
  obtain ⟨e, he, hrun⟩ := exec_next_effect h
  obtain ⟨hm, -⟩ := exec_next_driven h
  obtain rfl : e.run s = t := Host.Outcome.next.inj ((hrun s hm fun _ _ => rfl).symm.trans h)
  rw [← he.wire] at hfree ⊢
  rw [← he.count]
  exact run_of_free hfree

/-- Settles O52: the applications behind one that completes still read what they read and still have free wires. -/
theorem anyNumberOfInstances : Obligations.AnyNumberOfInstances := by
  intro s apps
  induction apps generalizing s with
  | nil => exact fun _ _ => ⟨s, rfl, .refl _ _, rfl⟩
  | cons i rest ih =>
    intro hready hpairs
    obtain ⟨⟨hm, hfree, hdriven⟩, hready⟩ := List.forall_mem_cons.mp hready
    obtain ⟨hfirst, hpairs⟩ := List.pairwise_cons.mp hpairs
    obtain ⟨s1, hi⟩ := exec_of_driven hm hdriven
    obtain ⟨-, hmax⟩ := exec_keeps hi
    obtain ⟨hstay, hcount, hwires⟩ := exec_on_free_wire hi hfree
    obtain ⟨t, ht, hstay', hcount'⟩ := ih s1 (fun j hj => by
      obtain ⟨hmj, hfreej, hdrivenj⟩ := hready j hj
      obtain ⟨hout, hreads⟩ := hfirst j hj
      refine ⟨hmax ▸ hmj, fun hw => ?_, fun p hp => ?_⟩
      · rcases hwires _ hw with hw | hw
        · exact hfreej hw
        · exact hout (Wire.named.inj hw).symm
      · have hn : p.2 ∉ resultNames i := fun hmem => hreads _ hmem p hp rfl
        rw [readInput_of_exec_next hi hn]
        exact hdrivenj p hp) hpairs
    refine ⟨t, (execAll_cons_of_next hi rest).trans ht, hstay.trans hstay', ?_⟩
    rw [hcount', hcount, List.length_cons]
    omega

end Sys2Proof.Proofs
end

section
/-! Input changes at standing instances (R35, R102), and DETCOR as SYN followed by COR (R91); O28 and O54. -/

namespace Sys2Proof.Proofs
open Sys2Proof Sys2Proof.Machine

/-- Where an instance of the width drives the wire, the new ports replace its ports and no instance is added. -/
theorem settleOn_replaces {P : Type} {width : P → Nat} {w : Wire} {l : List (Wired P)} (hl : KeysUnique width l) (p : P)
    (hmem : (w, width p) ∈ l.map (Wired.key width)) :
    (settleOn width w p l).map (Wired.key width) = l.map (Wired.key width) ∧
      ∀ x ∈ settleOn width w p l, x.wire = w → width x.ports = width p → x.ports = p := by
  refine ⟨by rw [map_key_settleOn, if_pos hmem], fun x hx hw hp => ?_⟩
  rw [eq_of_mem_settleOn hl hx hw hp]

/-- Settles O54: every block settles its instance by `settleOn`, on ports that are its inputs and its function of
them. -/
theorem inputChangeReplacesPorts : Obligations.InputChangeReplacesPorts := by
  intro s t m hs
  obtain ⟨hencoders, hgenerators, hcorrectors, hdecoders⟩ := hs
  refine ⟨?enc, ?syn, ?cor, ?dec, ?detcor⟩
  case enc =>
    intro dst src h hmem
    obtain ⟨-, d, hd, rfl⟩ := execEnc_next h
    obtain ⟨hkeys, hports⟩ := settleOn_replaces hencoders ⟨driven d, driven (encodeWord m d)⟩ hmem
    exact ⟨hkeys, d, hd, hports⟩
  case syn =>
    intro dst src h hmem
    obtain ⟨-, c, hc, rfl⟩ := execSyn_next h
    obtain ⟨hkeys, hports⟩ := settleOn_replaces hgenerators ⟨driven c, driven (syndromeOf m c)⟩ hmem
    exact ⟨hkeys, c, hc, hports⟩
  case cor =>
    intro n1 n2 n3 n4 srcC srcS h hmem
    obtain ⟨-, c, syn, hc, hsyn, rfl⟩ := execCor_next h
    obtain ⟨hkeys, hports⟩ := settleOn_replaces hcorrectors
      ⟨driven c, driven syn, driven (correctedWord c syn), driven syn, driven (syndromeNonzeroFlag syn),
        driven (syndromeBeyondNFlag (codewordLength m) syn)⟩ hmem
    exact ⟨hkeys, c, syn, hc, hsyn, hports⟩
  case dec =>
    intro dst src h hmem
    obtain ⟨-, c, hc, rfl⟩ := execDec_next h
    obtain ⟨hkeys, hports⟩ := settleOn_replaces hdecoders ⟨driven c, driven (decodeWord m c)⟩ hmem
    exact ⟨hkeys, c, hc, hports⟩
  case detcor =>
    intro n1 n2 n3 n4 src h hmemS hmemC
    obtain ⟨-, c, hc, rfl⟩ := execDetcor_next h
    obtain ⟨hkeysS, hportsS⟩ := settleOn_replaces hgenerators ⟨driven c, driven (syndromeOf m c)⟩ hmemS
    obtain ⟨hkeysC, hportsC⟩ := settleOn_replaces hcorrectors
      ⟨driven c, driven (syndromeOf m c), driven (correctedWord c (syndromeOf m c)), driven (syndromeOf m c),
        driven (syndromeNonzeroFlag (syndromeOf m c)),
        driven (syndromeBeyondNFlag (codewordLength m) (syndromeOf m c))⟩ hmemC
    exact ⟨hkeysS, hkeysC, c, hc, hportsS, hportsC⟩

/-- A name that was bound to a vector drives a port of its width to it. -/
theorem readInput_name_self (s : State) (n : Ident) {w : Nat} (v : BitVec w) : (s.name n v).readInput w n = .ok v :=
  readInput_eq_ok.mpr ⟨_, lookupIn_bindIn_self n _ _, onPort_vec_self w v⟩

theorem readInput_name_ne {s : State} {n k : Ident} (h : k ≠ n) {w : Nat} (v : BitVec w) (w' : Nat) :
    (s.name n v).readInput w' k = s.readInput w' k :=
  readInput_congr (lookupIn_bindIn_ne h _ _) w'

/-- Settles O28: SYN leaves the codeword as it was and its syndrome under x, which COR reads. -/
theorem detcorIsSynThenCor : Obligations.DetcorIsSynThenCor := by
  intro s m n1 n2 n3 n4 src x c hm hc hx
  have hsyn : exec (.syn x ⟨m, src⟩) s =
      .next ((s.driveSyndromeGenerator (.named x) m c).name x (syndromeOf m c)) := execSyn_of_ok x hm hc
  have hcor := execCor_of_ok n1 n2 n3 n4
    (s := (s.driveSyndromeGenerator (.named x) m c).name x (syndromeOf m c)) hm
    ((readInput_name_ne (Ne.symm hx) _ _).trans hc) (readInput_name_self _ x (syndromeOf m c))
  refine ⟨_, _, _, ⟨driven c, driven (syndromeOf m c)⟩, hsyn, hcor, execDetcor_of_ok n1 n2 n3 n4 hm hc, rfl, rfl, rfl, rfl,
    rfl, rfl, rfl, fun n hn => ?_⟩
  have hbefore : lookupIn n s.values = lookupIn n (bindIn x (.vec (driven (syndromeOf m c))) s.values) :=
    (lookupIn_bindIn_ne hn _ _).symm
  exact lookupIn_bindAll_congr (bs := [(n1, _), (n2, _), (n3, _), (n4, _)]) fun _ => hbefore

end Sys2Proof.Proofs
end

section
/-! Sizes (R43 to R49): R in closed form, which codeword lengths exist, and the parity positions of one; O2, O3, O4 and
O5. -/

namespace Sys2Proof.Proofs
open Sys2Proof Sys2Proof.Machine

/-! ### R in closed form -/

/-- What meets the bound of R43 meets it with every greater redundancy. -/
theorem bound_mono {m k r : Nat} (hle : k ≤ r) (hk : m + k + 1 ≤ 2 ^ k) : m + r + 1 ≤ 2 ^ r := by
  induction r, hle using Nat.le_induction with
  | base => exact hk
  | succ r _ ih =>
    have hpos : 1 ≤ 2 ^ r := Nat.one_le_two_pow
    rw [Nat.pow_succ]
    omega

theorem two_le_computeRedundancy {m : Nat} (hm : 1 ≤ m) : 2 ≤ computeRedundancy m := by
  have hmeets := computeRedundancy_meets_bound m
  by_contra hlt
  obtain h | h : computeRedundancy m = 0 ∨ computeRedundancy m = 1 := by omega
  all_goals
    rw [h] at hmeets
    omega

/-- The redundancy before R fails the bound, so a codeword is longer than its greatest power of two. -/
theorem two_pow_lt_codewordLength {m : Nat} (hm : 1 ≤ m) : 2 ^ (computeRedundancy m - 1) < codewordLength m := by
  have htwo := two_le_computeRedundancy hm
  have hfails : ¬ m + (computeRedundancy m - 1) + 1 ≤ 2 ^ (computeRedundancy m - 1) := fun hmeets => by
    have := computeRedundancy_le hmeets
    omega
  rw [codewordLength]
  omega

theorem computeRedundancy_eq_iff {m : Nat} (hm : 1 ≤ m) (r : Nat) :
    computeRedundancy m = r ↔ 2 ^ (r - 1) + 1 ≤ m + r ∧ m + r + 1 ≤ 2 ^ r := by
  constructor
  · rintro rfl
    exact ⟨two_pow_lt_codewordLength hm, computeRedundancy_meets_bound m⟩
  · rintro ⟨hfails, hmeets⟩
    have hle := computeRedundancy_le hmeets
    by_contra hne
    have hbefore : m + (r - 1) + 1 ≤ 2 ^ (r - 1) := bound_mono (by omega) (computeRedundancy_meets_bound m)
    omega

/-- A number between two neighbouring powers of two has the lower one's exponent as its logarithm. -/
theorem floorLog2_eq_of_between {n k : Nat} (h1 : 2 ^ k ≤ n) (h2 : n < 2 ^ (k + 1)) : floorLog2 n = k := by
  have hpos : 1 ≤ 2 ^ k := Nat.one_le_two_pow
  exact (Nat.log2_eq_iff (by omega)).mpr ⟨h1, h2⟩

theorem codewordLength_lt_two_pow_succ_pred {m : Nat} (hm : 1 ≤ m) :
    codewordLength m < 2 ^ (computeRedundancy m - 1 + 1) := by
  have htwo := two_le_computeRedundancy hm
  rw [Nat.sub_add_cancel (by omega)]
  exact codewordLength_lt_two_pow m

theorem computeRedundancy_eq_floorLog2 {m : Nat} (hm : 1 ≤ m) :
    computeRedundancy m = floorLog2 (codewordLength m) + 1 := by
  have htwo := two_le_computeRedundancy hm
  have hlog : floorLog2 (codewordLength m) = computeRedundancy m - 1 :=
    floorLog2_eq_of_between (two_pow_lt_codewordLength hm).le (codewordLength_lt_two_pow_succ_pred hm)
  omega

/-- Settles O2: R meets the bound of R43, and R - 1 does not. -/
theorem redundancyClosedForm : Obligations.RedundancyClosedForm := fun m hm =>
  ⟨computeRedundancy_eq_iff hm, two_pow_lt_codewordLength hm, codewordLength_lt_two_pow m,
    computeRedundancy_eq_floorLog2 hm, two_le_computeRedundancy hm⟩

/-! ### Which lengths exist -/

theorem isPow2_eq_false_of_between {n k : Nat} (h1 : 2 ^ k < n) (h2 : n < 2 ^ (k + 1)) : isPow2 n = false := by
  refine Bool.eq_false_iff.mpr fun hn => h1.ne ?_
  rw [eq_two_pow_of_isPow2 hn, floorLog2_eq_of_between h1.le h2]

theorem lt_two_pow_floorLog2_succ (n : Nat) : n < 2 ^ (floorLog2 n + 1) := Nat.lt_log2_self

theorem two_pow_floorLog2_lt {n : Nat} (hn : 1 ≤ n) (hpow : isPow2 n = false) : 2 ^ floorLog2 n < n := by
  have hle : 2 ^ floorLog2 n ≤ n := Nat.log2_self_le (by omega)
  refine lt_of_le_of_ne hle fun heq => ?_
  rw [isPow2_iff.mpr ⟨_, heq.symm⟩] at hpow
  cases hpow

/-- A length that is no power of two leaves at least one data bit. -/
theorem floorLog2_succ_lt {n : Nat} (hn : 1 ≤ n) (hpow : isPow2 n = false) : floorLog2 n + 1 < n := by
  have hlow := two_pow_floorLog2_lt hn hpow
  have hlog : floorLog2 n < 2 ^ floorLog2 n := Nat.lt_two_pow_self
  omega

theorem one_le_of_isPow2 {n : Nat} (h : isPow2 n = true) : 1 ≤ n := by
  rw [eq_two_pow_of_isPow2 h]
  exact Nat.one_le_two_pow

/-- Which r a length n ≥ 1 splits with (R48): the logarithm's successor, and none if n is a power of two. -/
theorem computeRedundancy_sub_eq_iff {n r : Nat} (hn : 1 ≤ n) (hr : r ≤ n) :
    computeRedundancy (n - r) = r ↔ isPow2 n = false ∧ r = floorLog2 n + 1 := by
  constructor
  · intro h
    rcases Nat.eq_zero_or_pos (n - r) with hzero | hpos
    · rw [hzero, computeRedundancy_zero] at h
      omega
    · have htwo := two_le_computeRedundancy hpos
      obtain ⟨hlow, hhigh⟩ := (computeRedundancy_eq_iff hpos r).mp h
      have hsucc : r - 1 + 1 = r := by omega
      have h1 : 2 ^ (r - 1) < n := by omega
      have h2 : n < 2 ^ (r - 1 + 1) := by
        rw [hsucc]
        omega
      exact ⟨isPow2_eq_false_of_between h1 h2, by rw [floorLog2_eq_of_between h1.le h2, hsucc]⟩
  · rintro ⟨hpow, rfl⟩
    have hlow := two_pow_floorLog2_lt hn hpow
    have hhigh := lt_two_pow_floorLog2_succ n
    have hlt := floorLog2_succ_lt hn hpow
    refine (computeRedundancy_eq_iff (by omega) _).mpr ⟨?_, ?_⟩
    · rw [Nat.add_sub_cancel]
      omega
    · omega

theorem inferRedundancy_of_isPow2 {n : Nat} (hpow : isPow2 n = true) : inferRedundancy n = none := by
  have hn := one_le_of_isPow2 hpow
  refine List.find?_range_eq_none.mpr fun r hr => ?_
  have hne : computeRedundancy (n - r) ≠ r := fun h => by
    obtain ⟨hpow', -⟩ := (computeRedundancy_sub_eq_iff hn (Nat.le_of_lt_succ hr)).mp h
    exact absurd hpow (Bool.eq_false_iff.mp hpow')
  simp [hne]

theorem inferRedundancy_of_not_isPow2 {n : Nat} (hn : 1 ≤ n) (hpow : isPow2 n = false) :
    inferRedundancy n = some (floorLog2 n + 1) := by
  have hle : floorLog2 n + 1 ≤ n := (floorLog2_succ_lt hn hpow).le
  refine List.find?_range_eq_some.mpr ⟨?_, List.mem_range.mpr (by omega), fun r hr => ?_⟩
  · exact beq_iff_eq.mpr ((computeRedundancy_sub_eq_iff hn hle).mpr ⟨hpow, rfl⟩)
  · have hne : computeRedundancy (n - r) ≠ r := fun h => by
      obtain ⟨-, heq⟩ := (computeRedundancy_sub_eq_iff hn (by omega)).mp h
      omega
    simp [hne]

theorem isPow2_codewordLength {m : Nat} (hm : 1 ≤ m) : isPow2 (codewordLength m) = false :=
  isPow2_eq_false_of_between (two_pow_lt_codewordLength hm) (codewordLength_lt_two_pow_succ_pred hm)

/-- Settles O3: a length splits only at the successor of its logarithm, and not at all if it is a power of two. -/
theorem inferredRedundancyOfLength : Obligations.InferredRedundancyOfLength := by
  refine ⟨fun n hn => ?_, fun m => ?_, fun n => isPow2_iff⟩
  · cases hpow : isPow2 n with
    | true => exact inferRedundancy_of_isPow2 hpow
    | false => exact inferRedundancy_of_not_isPow2 hn hpow
  · rcases Nat.eq_zero_or_pos m with rfl | hm
    · rfl
    · have hn : 1 ≤ codewordLength m := hm.trans_le (Nat.le_add_right m _)
      rw [inferRedundancy_of_not_isPow2 hn (isPow2_codewordLength hm), computeRedundancy_eq_floorLog2 hm]

theorem widthOfLength_of_inferred {n r : Nat} {limit : WidthLimit} (h : inferRedundancy n = some r)
    (hm : isElaborable (n - r) limit = true) : widthOfLength n limit = .ok (n - r) := by
  simp [widthOfLength, h, elaborationRefusal_eq_none.mpr hm]

theorem widthOfLength_of_refusal {n r : Nat} {limit : WidthLimit} {e : Refusal} (h : inferRedundancy n = some r)
    (hr : elaborationRefusal (n - r) limit = some e) : widthOfLength n limit = .error e := by
  simp [widthOfLength, h, hr]

/-- Settles O4: the inferred redundancy leaves M = n - floorLog2 n - 1, which is elaborated or refused as M is. -/
theorem lengthElaboration : Obligations.LengthElaboration := by
  intro n limit
  refine ⟨?_, fun hpow => ?_, fun hn hpow hlimit => ?_, fun hn hpow hlimit => ?_⟩
  · rintro rfl
    exact widthOfLength_of_refusal (r := 0) rfl (elaborationRefusal_zero limit)
  · simp [widthOfLength, inferRedundancy_of_isPow2 hpow]
  · have hlt := floorLog2_succ_lt hn hpow
    have hle : floorLog2 n + 1 ≤ n := hlt.le
    have hR := (computeRedundancy_sub_eq_iff hn hle).mpr ⟨hpow, rfl⟩
    have hm : isElaborable (n - (floorLog2 n + 1)) limit = true := isElaborable_iff.mpr ⟨by omega, hlimit⟩
    exact ⟨widthOfLength_of_inferred (inferRedundancy_of_not_isPow2 hn hpow) hm,
      (congrArg (n - (floorLog2 n + 1) + ·) hR).trans (Nat.sub_add_cancel hle)⟩
  · obtain ⟨l, hl, hlt⟩ := hlimit
    exact widthOfLength_of_refusal (inferRedundancy_of_not_isPow2 hn hpow) (elaborationRefusal_of_lt hl hlt)

/-! ### Parity positions -/

theorem pairwise_positions (n : Nat) : (positions n).Pairwise (· < ·) := List.pairwise_lt_range' 1

/-- Settles O5: both lists increase and hold the same positions. -/
theorem parityPositionsArePowers : Obligations.ParityPositionsArePowers := by
  intro m _
  have hpowers : ((List.range (computeRedundancy m)).map (2 ^ ·)).Pairwise (· < ·) :=
    List.pairwise_map.mpr (List.pairwise_lt_range.imp fun h => Nat.pow_lt_pow_right Nat.one_lt_two h)
  refine ((pairwise_positions _).filter _).eq_of_mem_iff hpowers fun i => ?_
  simp only [List.mem_filter, mem_positions, List.mem_map, List.mem_range]
  constructor
  · rintro ⟨⟨-, hn⟩, hi⟩
    obtain ⟨k, rfl⟩ := isPow2_iff.mp hi
    exact ⟨k, two_pow_le_codewordLength_iff.mp hn, rfl⟩
  · rintro ⟨k, hk, rfl⟩
    exact ⟨⟨Nat.one_le_two_pow, two_pow_le_codewordLength hk⟩, isPow2_two_pow k⟩

end Sys2Proof.Proofs
end

section
/-! Data positions (R50, R69): `didx` counts them, so it undoes `dpos`, and the layout loop ends behind the last of them; O6
and O11. -/

namespace Sys2Proof.Proofs
open Sys2Proof Sys2Proof.Machine

theorem mem_dataPositions {n i : Nat} : i ∈ dataPositions n ↔ (1 ≤ i ∧ i ≤ n) ∧ isPow2 i = false := by
  simp [dataPositions, mem_positions]

theorem pairwise_dataPositions (n : Nat) : (dataPositions n).Pairwise (· < ·) := (pairwise_positions n).filter _

/-- The data positions in order stand for data bits 1, 2, 3 and so on (R50). -/
theorem map_didx_dataPositions (n : Nat) : (dataPositions n).map didx = positions (dataPositions n).length := by
  induction n with
  | zero => rfl
  | succ n ih =>
    obtain ⟨a, h⟩ := exists_layoutCursors_dataPositions n
    rw [dataPositions_succ]
    cases hpow : isPow2 (n + 1) with
    | true => simpa using ih
    | false =>
      have hne : n + 1 ≠ 2 ^ a := fun heq => by simp [heq] at hpow
      simp [ih, h.didx_eq hne, positions_succ]

theorem didx_getElem_dataPositions {n t : Nat} (ht : t < (dataPositions n).length) :
    didx (dataPositions n)[t] = t + 1 := by
  have hmap : ((dataPositions n).map didx)[t]'(by simpa using ht) = t + 1 := by
    simp [map_didx_dataPositions, positions, Nat.add_comm]
  simpa using hmap

theorem didx_dpos {m j : Nat} (h1 : 1 ≤ j) (h2 : j ≤ m) : didx (dpos (codewordLength m) j) = j := by
  have hlen := length_dataPositions m
  rw [dpos_eq_getElem (by omega), didx_getElem_dataPositions]
  omega

/-- Every data position of a codeword stands for one of the M data bits. -/
theorem dpos_didx {m i : Nat} (h1 : 1 ≤ i) (h2 : i ≤ codewordLength m) (hi : isPow2 i = false) :
    1 ≤ didx i ∧ didx i ≤ m ∧ dpos (codewordLength m) (didx i) = i := by
  obtain ⟨t, ht, rfl⟩ := List.mem_iff_getElem.mp (mem_dataPositions.mpr ⟨⟨h1, h2⟩, hi⟩)
  have hlen := length_dataPositions m
  rw [didx_getElem_dataPositions ht]
  exact ⟨by omega, by omega, dpos_eq_getElem ht⟩

theorem isPow2_dpos {m j : Nat} (h1 : 1 ≤ j) (h2 : j ≤ m) : isPow2 (dpos (codewordLength m) j) = false :=
  (mem_dataPositions.mp (dpos_mem_dataPositions h1 h2)).2

theorem dpos_lt_dpos {m j j' : Nat} (h1 : 1 ≤ j) (hlt : j < j') (h2 : j' ≤ m) :
    dpos (codewordLength m) j < dpos (codewordLength m) j' := by
  have hlen := length_dataPositions m
  rw [dpos_eq_getElem (by omega), dpos_eq_getElem (by omega)]
  exact List.pairwise_iff_getElem.mp (pairwise_dataPositions _) _ _ _ _ (by omega)

/-- Settles O6: the data positions are listed in order and `didx` counts them. -/
theorem dataPositionMapsAreInverse : Obligations.DataPositionMapsAreInverse := by
  refine fun m _ => ⟨fun j h1 h2 => ?_, fun i h1 h2 hi => dpos_didx h1 h2 hi, fun j j' h1 hlt h2 => dpos_lt_dpos h1 hlt h2⟩
  obtain ⟨hpos, hle⟩ := dpos_mem_positions h1 h2
  exact ⟨hpos, hle, isPow2_dpos h1 h2, didx_dpos h1 h2⟩

/-- The cursors before a position are fixed by it. -/
theorem LayoutCursors.unique {i a a' j j' : Nat} (h : LayoutCursors i a j) (h' : LayoutCursors i a' j') :
    a = a' ∧ j = j' := by
  obtain ⟨hle, hlt, hindex⟩ := h
  obtain ⟨hle', hlt', hindex'⟩ := h'
  have h1 : a < a' + 1 := (Nat.pow_lt_pow_iff_right Nat.one_lt_two).mp (by rw [Nat.pow_succ]; omega)
  have h2 : a' < a + 1 := (Nat.pow_lt_pow_iff_right Nat.one_lt_two).mp (by rw [Nat.pow_succ]; omega)
  omega

/-- Behind the last position of a codeword the cursors stand at 2^R and M + 1. -/
theorem LayoutCursors.eq_of_codewordLength {m a j : Nat} (h : LayoutCursors (codewordLength m + 1) a j) :
    a = computeRedundancy m ∧ j = m + 1 := by
  obtain ⟨a', h'⟩ := exists_layoutCursors_dataPositions (codewordLength m)
  rw [length_dataPositions] at h'
  obtain ⟨-, hj⟩ := h.unique h'
  have hindex := h.index
  rw [codewordLength] at hindex
  omega

theorem layoutFrom_ends_of_parity {m : Nat} (d : BitVec m) (count i j : Nat) :
    (layoutFrom d (count + 1) i i j).2 = (layoutFrom d count (i + 1) (2 * i) j).2 := by
  simp [layoutFrom]

theorem layoutFrom_ends_of_data {m : Nat} (d : BitVec m) (count : Nat) {i pw : Nat} (j : Nat) (hne : i ≠ pw) :
    (layoutFrom d (count + 1) i pw j).2 = (layoutFrom d count (i + 1) pw (j + 1)).2 := by
  simp [layoutFrom, hne]

/-- The loop ends with the cursors of the position behind the last it placed. -/
theorem layoutFrom_ends {m : Nat} (d : BitVec m) {count i a j : Nat} (h : LayoutCursors i a j) :
    ∃ a' j', (layoutFrom d count i (2 ^ a) j).2 = (2 ^ a', j') ∧ LayoutCursors (i + count) a' j' := by
  induction count generalizing i a j with
  | zero => exact ⟨a, j, rfl, h⟩
  | succ count ih =>
    rw [Nat.add_comm count 1, ← Nat.add_assoc, Nat.add_comm 1 count]
    by_cases hi : i = 2 ^ a
    · subst hi
      rw [layoutFrom_ends_of_parity, ← Nat.pow_succ']
      exact ih h.after_parity
    · rw [layoutFrom_ends_of_data d count j hi]
      exact ih (h.after_data hi)

theorem layoutLoop_ends (m : Nat) (d : BitVec m) : (layoutLoop m d).2 = (2 ^ computeRedundancy m, m + 1) := by
  obtain ⟨a, j, hends, hcursors⟩ := layoutFrom_ends (count := codewordLength m) d LayoutCursors.start
  rw [Nat.add_comm] at hcursors
  obtain ⟨rfl, rfl⟩ := hcursors.eq_of_codewordLength
  exact hends

theorem bitAt_layout_of_not_isPow2 {m i : Nat} (d : BitVec m) (h1 : 1 ≤ i) (h2 : i ≤ codewordLength m)
    (hi : isPow2 i = false) : bitAt (layout m d) i = bitAt d (didx i) := by
  simp [bitAt_layout_eq d h1 h2, hi]

/-- Settles O11: the skeleton in closed form, `dpos j` as the one position of data bit j, and the last cursors. -/
theorem layoutPlacesEveryDataBit : Obligations.LayoutPlacesEveryDataBit := by
  refine fun m _ d => ⟨fun i h1 h2 hi => ?_, fun i h1 h2 hi => bitAt_layout_of_not_isPow2 d h1 h2 hi, fun j h1 h2 => ?_,
    layoutLoop_ends m d⟩
  · simp [bitAt_layout_eq d h1 h2, hi]
  · obtain ⟨hpos, hle⟩ := dpos_mem_positions h1 h2
    refine ⟨dpos (codewordLength m) j, ⟨⟨hpos, hle, isPow2_dpos h1 h2⟩, didx_dpos h1 h2⟩, ?_⟩
    rintro i ⟨⟨hi1, hi2, hi⟩, rfl⟩
    obtain ⟨-, -, heq⟩ := dpos_didx hi1 hi2 hi
    exact heq.symm

end Sys2Proof.Proofs
end

section
/-! Group parities (R60 to R65): groups are binary digits, the parity of a group is linear, and where all data positions
hold 0 it is the bit at the group's own parity position; O7 and O9. -/

namespace Sys2Proof.Proofs
open Sys2Proof Sys2Proof.Machine

/-- Two numbers below 2^r differ in a binary digit below r. -/
theorem exists_testBit_ne_of_lt {i j r : Nat} (hi : i < 2 ^ r) (hj : j < 2 ^ r) (hne : i ≠ j) :
    ∃ k, k < r ∧ i.testBit k ≠ j.testBit k := by
  by_contra hall
  refine hne (Nat.eq_of_testBit_eq fun k => ?_)
  rcases Nat.lt_or_ge k r with hk | hk
  · by_contra hbit
    exact hall ⟨k, hk, hbit⟩
  · have hpow : 2 ^ r ≤ 2 ^ k := Nat.pow_le_pow_right Nat.two_pos hk
    rw [Nat.testBit_lt_two_pow (hi.trans_le hpow), Nat.testBit_lt_two_pow (hj.trans_le hpow)]

theorem lt_two_pow_of_le_codewordLength {m i : Nat} (h : i ≤ codewordLength m) : i < 2 ^ computeRedundancy m :=
  h.trans_lt (codewordLength_lt_two_pow m)

/-- Settles O7: a position of a codeword is below 2^R, so its digits below R tell it from every other and from 0. -/
theorem groupsAreBinaryDigits : Obligations.GroupsAreBinaryDigits := by
  refine ⟨fun n k i => ?_, fun m i _ h1 h2 => ?_, fun m i j _ _ hi _ hj hne => ?_⟩
  · simp [coverageGroup, mem_positions, inGroup_eq_testBit, and_assoc]
  · have hne : i ≠ 0 := by omega
    obtain ⟨k, hk, hbit⟩ := exists_testBit_ne_of_lt (lt_two_pow_of_le_codewordLength h2) (Nat.two_pow_pos _) hne
    exact ⟨k, hk, by simpa [inGroup_eq_testBit] using hbit⟩
  · simp only [inGroup_eq_testBit]
    exact exists_testBit_ne_of_lt (lt_two_pow_of_le_codewordLength hi) (lt_two_pow_of_le_codewordLength hj) hne

theorem groupParity_xor {n : Nat} (a b : BitVec n) (k : Nat) :
    groupParity (a ^^^ b) k = Bool.xor (groupParity a k) (groupParity b k) := by
  simp only [groupParity, bitAt_xor, Bool.and_xor_distrib_left, xorOver_xor]

@[simp] theorem groupParity_zero (n k : Nat) : groupParity (0#n) k = false := by
  simp [groupParity]

/-- Settles O9: XOR over the positions distributes over XOR, and only p counts in a one-hot vector. -/
theorem groupParityIsLinear : Obligations.GroupParityIsLinear := by
  refine fun n k => ⟨fun a b => groupParity_xor a b k, groupParity_zero n k, fun p h1 h2 => ?_⟩
  have honly : groupParity (oneHot n p) k = xorOver n fun i => inGroup i k && i == p :=
    xorOver_congr fun i hi1 hi2 => by rw [bitAt_oneHot hi1 hi2]
  rw [honly, xorOver_single h1 h2 fun i hi => by simp [hi], inGroup_eq_testBit]
  simp

/-- The parity position of a group is the only one in it, where all data positions hold 0 (R62). -/
theorem groupParity_of_no_data {n k : Nat} {v : BitVec n} (hk : 2 ^ k ≤ n)
    (hdata : ∀ i, 1 ≤ i → i ≤ n → isPow2 i = false → bitAt v i = false) : groupParity v k = bitAt v (2 ^ k) := by
  have honly : groupParity v k = xorOver n fun i => i == 2 ^ k && bitAt v (2 ^ k) := by
    refine xorOver_congr fun i h1 h2 => ?_
    cases hi : isPow2 i with
    | false =>
      have hne : i ≠ 2 ^ k := fun heq => by simp [heq] at hi
      simp [hdata i h1 h2 hi, hne]
    | true =>
      obtain ⟨j, rfl⟩ := isPow2_iff.mp hi
      by_cases hjk : j = k
      · simp [hjk, inGroup_two_pow]
      · simp [hjk, inGroup_two_pow]
  rw [honly, xorOver_single Nat.one_le_two_pow hk fun i hi => by simp [hi]]
  simp

/-- Writing the parities makes the parity of each group the bit that stood at its parity position. -/
theorem groupParity_applyParity {n k : Nat} (v : BitVec n) (hk : 2 ^ k ≤ n) :
    groupParity (applyParity v) k = bitAt v (2 ^ k) := by
  have hchange : groupParity (applyParity v ^^^ v) k = bitAt (applyParity v ^^^ v) (2 ^ k) :=
    groupParity_of_no_data hk fun i h1 h2 hi => by simp [bitAt_applyParity_of_not_isPow2 v h1 h2 hi]
  rw [groupParity_xor, bitAt_xor, bitAt_applyParity_two_pow v hk, Bool.xor_comm] at hchange
  exact Bool.xor_right_inj.mp hchange

end Sys2Proof.Proofs
end

section
/-! The code (R71 to R77, R89, R90): ENC is linear, DEC undoes it, and its outputs are the vectors of syndrome 0; O13 to O16,
O18 to O20, O26 and O27. -/

namespace Sys2Proof.Proofs
open Sys2Proof Sys2Proof.Machine

section
variable {m : Nat}

/-! ### ENC and DEC -/

theorem bitAt_encodeWord_of_not_isPow2 (d : BitVec m) {i : Nat} (h1 : 1 ≤ i) (h2 : i ≤ codewordLength m)
    (hi : isPow2 i = false) : bitAt (encodeWord m d) i = bitAt d (didx i) :=
  (bitAt_applyParity_of_not_isPow2 _ h1 h2 hi).trans (bitAt_layout_of_not_isPow2 d h1 h2 hi)

/-- Settles O13: the parities are those of the skeleton, whose closed form has 0 at the powers of two. -/
theorem encodeClosedForm : Obligations.EncodeClosedForm := by
  refine fun m _ d => ⟨fun i h1 h2 hi => bitAt_encodeWord_of_not_isPow2 d h1 h2 hi, fun k hk => ?_⟩
  refine (bitAt_applyParity_two_pow _ (two_pow_le_codewordLength hk)).trans (xorOver_congr fun i h1 h2 => ?_)
  rw [bitAt_layout_eq d h1 h2, Bool.and_left_comm, Bool.and_assoc]

theorem decodeWord_encodeWord (d : BitVec m) : decodeWord m (encodeWord m d) = d := by
  refine eq_of_bitAt fun j h1 h2 => ?_
  obtain ⟨hpos, hle⟩ := dpos_mem_positions h1 h2
  rw [bitAt_decodeWord m _ h1 h2, bitAt_encodeWord_of_not_isPow2 d hpos hle (isPow2_dpos h1 h2), didx_dpos h1 h2]

/-- Settles O27: data bit j stands at `dpos j`, where DEC reads it. -/
theorem decodeOfEncodeIsIdentity : Obligations.DecodeOfEncodeIsIdentity := fun _ _ => decodeWord_encodeWord

theorem bitAt_decodeWord_didx (c : BitVec (codewordLength m)) {i : Nat} (h1 : 1 ≤ i) (h2 : i ≤ codewordLength m)
    (hi : isPow2 i = false) : bitAt (decodeWord m c) (didx i) = bitAt c i := by
  obtain ⟨hpos, hle, heq⟩ := dpos_didx h1 h2 hi
  rw [bitAt_decodeWord m c hpos hle, heq]

/-- Settles O26: DEC reads data positions alone. -/
theorem decodeIgnoresParityPositions : Obligations.DecodeIgnoresParityPositions := by
  refine fun m _ c c' hdata => eq_of_bitAt fun j h1 h2 => ?_
  obtain ⟨hpos, hle⟩ := dpos_mem_positions h1 h2
  rw [bitAt_decodeWord m c h1 h2, bitAt_decodeWord m c' h1 h2, hdata _ hpos hle (isPow2_dpos h1 h2)]

theorem layout_xor (a b : BitVec m) : layout m (a ^^^ b) = layout m a ^^^ layout m b :=
  eq_of_bitAt fun i h1 h2 => by
    simp only [bitAt_xor, bitAt_layout_eq _ h1 h2, Bool.and_xor_distrib_left]

theorem applyParity_xor {n : Nat} (a b : BitVec n) : applyParity (a ^^^ b) = applyParity a ^^^ applyParity b := by
  refine eq_of_bitAt fun i h1 h2 => ?_
  simp only [bitAt_xor, bitAt_applyParity _ h1 h2]
  split
  · exact groupParity_xor a b _
  · rfl

theorem encodeWord_xor (a b : BitVec m) : encodeWord m (a ^^^ b) = encodeWord m a ^^^ encodeWord m b := by
  rw [encodeWord, layout_xor, applyParity_xor, encodeWord, encodeWord]

theorem encodeWord_zero (m : Nat) : encodeWord m (0#m) = 0#(codewordLength m) := by
  have hself := encodeWord_xor (0#m) (0#m)
  rwa [BitVec.xor_self, BitVec.xor_self] at hself

/-- Settles O15: the skeleton and the parities are linear, and DEC is a left inverse of ENC. -/
theorem encodeIsLinearAndInjective : Obligations.EncodeIsLinearAndInjective :=
  fun m _ => ⟨encodeWord_zero m, encodeWord_xor, fun _ _ h => Function.LeftInverse.injective decodeWord_encodeWord h⟩

/-! ### Syndromes -/

theorem syndromeOf_eq_zero_iff {c : BitVec (codewordLength m)} :
    syndromeOf m c = 0#(computeRedundancy m) ↔ ∀ k, k < computeRedundancy m → groupParity c k = false := by
  constructor
  · intro h k hk
    have hbit := getLsbD_syndromeOf m c k
    rw [h] at hbit
    simpa [hk] using hbit.symm
  · intro h
    refine BitVec.eq_of_getLsbD_eq fun k hk => ?_
    simp [h k hk]

/-- The placeholder is 0, so writing the parities makes every group's parity even (R73). -/
theorem groupParity_encodeWord (d : BitVec m) {k : Nat} (hk : k < computeRedundancy m) :
    groupParity (encodeWord m d) k = false :=
  (groupParity_applyParity _ (two_pow_le_codewordLength hk)).trans (bitAt_layout_two_pow d k)

theorem syndromeOf_encodeWord (d : BitVec m) : syndromeOf m (encodeWord m d) = 0#(computeRedundancy m) :=
  syndromeOf_eq_zero_iff.mpr fun _ => groupParity_encodeWord d

/-- Settles O14: each parity is written over a placeholder 0. -/
theorem encodedWordsHaveEvenParity : Obligations.EncodedWordsHaveEvenParity :=
  fun _ _ d => ⟨fun _ => groupParity_encodeWord d, syndromeOf_encodeWord d⟩

theorem syndromeOf_xor (a b : BitVec (codewordLength m)) :
    syndromeOf m (a ^^^ b) = syndromeOf m a ^^^ syndromeOf m b := by
  refine BitVec.eq_of_getLsbD_eq fun k _ => ?_
  simp only [BitVec.getLsbD_xor, getLsbD_syndromeOf, groupParity_xor, Bool.and_xor_distrib_left]

theorem syndromeOf_encodeWord_xor (d : BitVec m) (e : BitVec (codewordLength m)) :
    syndromeOf m (encodeWord m d ^^^ e) = syndromeOf m e := by
  rw [syndromeOf_xor, syndromeOf_encodeWord, BitVec.zero_xor]

/-- Settles O19: the syndrome is linear, and that of a codeword is 0. -/
theorem syndromeSeesOnlyTheError : Obligations.SyndromeSeesOnlyTheError := fun _ _ => syndromeOf_encodeWord_xor

/-- A vector of syndrome 0 whose data positions hold 0 is 0. -/
theorem eq_zero_of_syndromeOf_eq_zero {e : BitVec (codewordLength m)}
    (hsyn : syndromeOf m e = 0#(computeRedundancy m))
    (hdata : ∀ i, 1 ≤ i → i ≤ codewordLength m → isPow2 i = false → bitAt e i = false) : e = 0#(codewordLength m) := by
  refine eq_of_bitAt fun i h1 h2 => ?_
  rw [bitAt_zero]
  cases hi : isPow2 i with
  | false => exact hdata i h1 h2 hi
  | true =>
    obtain ⟨k, rfl⟩ := isPow2_iff.mp hi
    rw [← groupParity_of_no_data h2 hdata]
    exact syndromeOf_eq_zero_iff.mp hsyn k (two_pow_le_codewordLength_iff.mp h2)

/-- A vector of syndrome 0 is ENC of its own data bits: the two differ at no data position, and their XOR has syndrome
0. -/
theorem eq_encodeWord_of_syndromeOf_eq_zero {c : BitVec (codewordLength m)}
    (hsyn : syndromeOf m c = 0#(computeRedundancy m)) : c = encodeWord m (decodeWord m c) := by
  have hdiff : encodeWord m (decodeWord m c) ^^^ c = 0#(codewordLength m) := by
    refine eq_zero_of_syndromeOf_eq_zero ((syndromeOf_encodeWord_xor _ c).trans hsyn) fun i h1 h2 hi => ?_
    rw [bitAt_xor, bitAt_encodeWord_of_not_isPow2 _ h1 h2 hi, bitAt_decodeWord_didx c h1 h2 hi, Bool.xor_self]
  exact (BitVec.xor_eq_zero_iff.mp hdiff).symm

theorem isCodeword_iff {c : BitVec (codewordLength m)} :
    IsCodeword m c ↔ syndromeOf m c = 0#(computeRedundancy m) := by
  constructor
  · rintro ⟨d, rfl⟩
    exact syndromeOf_encodeWord d
  · exact fun hsyn => ⟨decodeWord m c, eq_encodeWord_of_syndromeOf_eq_zero hsyn⟩

/-- Settles O16: ENC's outputs have syndrome 0, and a vector of syndrome 0 is fixed by its data positions. -/
theorem codewordsAreZeroSyndromes : Obligations.CodewordsAreZeroSyndromes :=
  fun _ _ _ => ⟨isCodeword_iff.symm, fun hc => eq_encodeWord_of_syndromeOf_eq_zero (isCodeword_iff.mp hc)⟩

/-! ### The syndrome as a number -/

/-- A digit of the XOR of those of the positions 1..n that f picks. -/
theorem testBit_foldl_xor_positions (n k : Nat) (f : Nat → Bool) :
    (((positions n).filter f).foldl (· ^^^ ·) 0).testBit k = xorOver n fun i => i.testBit k && f i := by
  induction n with
  | zero => simp [positions, xorOver]
  | succ n ih =>
    rw [positions_succ, List.filter_append, List.foldl_append, xorOver, ← ih]
    cases hf : f (n + 1) <;> simp [hf]

/-- A codeword's group parities from R on are 0, as no position has such a digit. -/
theorem groupParity_of_le {k : Nat} (c : BitVec (codewordLength m)) (hk : computeRedundancy m ≤ k) :
    groupParity c k = false := by
  refine (xorOver_congr fun i _ h2 => ?_).trans (xorOver_false _)
  have hpow : 2 ^ computeRedundancy m ≤ 2 ^ k := Nat.pow_le_pow_right Nat.two_pos hk
  rw [inGroup_eq_testBit, Nat.testBit_lt_two_pow ((lt_two_pow_of_le_codewordLength h2).trans_le hpow), Bool.false_and]

theorem testBit_toNat_syndromeOf (c : BitVec (codewordLength m)) (k : Nat) :
    (syndromeOf m c).toNat.testBit k = groupParity c k := by
  rw [BitVec.testBit_toNat, getLsbD_syndromeOf]
  rcases Nat.lt_or_ge k (computeRedundancy m) with hk | hk
  · simp [hk]
  · simp [groupParity_of_le c hk]

theorem toNat_syndromeOf (c : BitVec (codewordLength m)) :
    (syndromeOf m c).toNat = (flippedPositions c).foldl (· ^^^ ·) 0 := by
  refine Nat.eq_of_testBit_eq fun k => ?_
  rw [testBit_toNat_syndromeOf, flippedPositions, testBit_foldl_xor_positions, groupParity]
  simp only [inGroup_eq_testBit]

/-- Settles O18: digit k of either number is the parity of group k. -/
theorem syndromeIsXorOfPositions : Obligations.SyndromeIsXorOfPositions := fun _ _ => toNat_syndromeOf

/-- One error gives its position, and position 0, which is none, gives 0. -/
theorem toNat_syndromeOf_oneHot {p : Nat} (hp : p ≤ codewordLength m) :
    (syndromeOf m (oneHot (codewordLength m) p)).toNat = p := by
  refine Nat.eq_of_testBit_eq fun k => ?_
  rw [testBit_toNat_syndromeOf]
  rcases Nat.eq_zero_or_pos p with rfl | hpos
  · rw [oneHot_eq_zero (.inl rfl), groupParity_zero, Nat.zero_testBit]
  · obtain ⟨-, -, honeHot⟩ := groupParityIsLinear (codewordLength m) k
    exact honeHot p hpos hp

end

/-- Settles O20: the syndrome of two errors is the XOR of those of the one and the other. -/
theorem twoErrorsNameNeitherPosition : Obligations.TwoErrorsNameNeitherPosition := by
  intro m _ d p q hp1 hp2 hq1 hq2 hne
  refine ⟨?_, fun h => hne (Nat.xor_eq_zero_iff.mp h), fun h => ?_, fun h => ?_⟩
  · rw [BitVec.xor_assoc, syndromeOf_encodeWord_xor, syndromeOf_xor, BitVec.toNat_xor, toNat_syndromeOf_oneHot hp2,
      toNat_syndromeOf_oneHot hq2]
  · have hq0 : q = 0 := Nat.xor_right_inj.mp (h.trans (Nat.xor_zero p).symm)
    omega
  · have hp0 : p = 0 := Nat.xor_left_inj.mp (h.trans (Nat.zero_xor q).symm)
    omega

end Sys2Proof.Proofs
end

section
/-! SYN, COR, DEC and DETCOR on the code (R75, R85, R87, R94 to R96, R102): what stands on their ports; O17, O22, O23, O24,
O29, O30 and O31. -/

namespace Sys2Proof.Proofs
open Sys2Proof Sys2Proof.Machine

/-- Settles O17: SYN drives its port and the name to the syndrome, whose bits are the group parities. -/
theorem synReportsEveryCheck : Obligations.SynReportsEveryCheck := by
  intro s m dst src c hm hc
  have hbit : ∀ k, k < computeRedundancy m → (syndromeOf m c).getLsbD k = groupParity c k := fun k hk => by
    rw [getLsbD_syndromeOf, decide_eq_true hk, Bool.true_and]
  refine ⟨_, syndromeOf m c, execSyn_of_ok dst hm hc,
    ⟨_, mem_settleOn_self (.named dst) _ s.syndromeGenerators, rfl⟩, lookupIn_bindIn_self dst _ _, hbit, ?_⟩
  rw [toNat_eq_sum]
  exact congrArg List.sum (List.map_congr_left fun k hk => by rw [hbit k (List.mem_range.mp hk)])

/-- Settles O24: DEC drives its port and the name to the decoded word, whose bit j is that at `dpos j`. -/
theorem decReadsDataPositions : Obligations.DecReadsDataPositions := by
  intro s m dst src c hm hc
  exact ⟨_, decodeWord m c, execDec_of_ok dst hm hc, ⟨_, mem_settleOn_self (.named dst) _ s.decoders, rfl⟩,
    lookupIn_bindIn_self dst _ _, fun j h1 h2 => bitAt_decodeWord m c h1 h2,
    fun i h1 h2 hi => bitAt_decodeWord_didx c h1 h2 hi⟩

/-! ### The corrector -/

/-- A syndrome that is a position inverts that position (R82). -/
theorem correctedWord_ne_self {n r : Nat} (c : BitVec n) {syn : BitVec r} (h1 : 1 ≤ syn.toNat) (h2 : syn.toNat ≤ n) :
    correctedWord c syn ≠ c := fun heq =>
  (bitAt_correctedWord_ne_iff c syn h1 h2).mpr rfl (by rw [heq])

theorem syndromeNonzeroFlag_eq_one_iff {r : Nat} (syn : BitVec r) : syndromeNonzeroFlag syn = 1#1 ↔ syn.toNat ≠ 0 := by
  by_cases h : syn.toNat = 0 <;> simp [syndromeNonzeroFlag_eq, h]

theorem syndromeBeyondNFlag_eq_one_iff {r : Nat} (n : Nat) (syn : BitVec r) :
    syndromeBeyondNFlag n syn = 1#1 ↔ n < syn.toNat := by
  by_cases h : n < syn.toNat <;> simp [syndromeBeyondNFlag_eq, h]

/-- Settles O22: the invariant gives the syndrome on the ports, which is 0, a position or above N. -/
theorem correctorStatusTable : Obligations.CorrectorStatusTable := by
  intro s hs x hx
  obtain ⟨m, c, syn, hm, hports⟩ := hs.errorCorrectors x hx
  refine ⟨m, hm, ?_⟩
  rw [hports]
  refine ⟨rfl, rfl, rfl, ?_⟩
  simp only [driven, toNat_syndromeNonzeroFlag, toNat_syndromeBeyondNFlag]
  have hlt : syn.toNat < 2 ^ computeRedundancy m := syn.isLt
  rcases Nat.eq_zero_or_pos syn.toNat with hzero | hpos
  · left
    simp [hzero, correctedWord_eq_self c (.inl hzero)]
  · have hne : syn.toNat ≠ 0 := by omega
    rcases Nat.lt_or_ge (codewordLength m) syn.toNat with hbeyond | hle
    · right
      right
      rw [if_neg hne, if_pos hbeyond, correctedWord_eq_self c (.inr hbeyond)]
      exact ⟨rfl, rfl, hbeyond, hlt, rfl⟩
    · right
      left
      rw [if_neg hne, if_neg hle.not_gt]
      refine ⟨rfl, rfl, hpos, hle, fun heq => correctedWord_ne_self c hpos hle ?_⟩
      simpa using heq

section
variable {m : Nat}

/-- Inverting the position that the syndrome names leaves syndrome 0 (R85). -/
theorem syndromeOf_correctedWord {c : BitVec (codewordLength m)} (h : (syndromeOf m c).toNat ≤ codewordLength m) :
    syndromeOf m (correctedWord c (syndromeOf m c)) = 0#(computeRedundancy m) := by
  have hpos : syndromeOf m (oneHot (codewordLength m) (syndromeOf m c).toNat) = syndromeOf m c :=
    BitVec.eq_of_toNat_eq (toNat_syndromeOf_oneHot h)
  rw [correctedWord_eq_xor_oneHot, syndromeOf_xor, hpos, BitVec.xor_self]

theorem correctedWord_zero {n r : Nat} (c : BitVec n) : correctedWord c (0#r) = c :=
  correctedWord_eq_self c (.inl (by simp))

/-- Settles O23: up to N the syndrome names the position whose inversion gives syndrome 0; above N it is not 0 and
nothing changes. -/
theorem pairedCorrectionIsValid : Obligations.PairedCorrectionIsValid := by
  rintro m _ c _ rfl
  refine ⟨fun hle => isCodeword_iff.mpr (syndromeOf_correctedWord hle), fun hbeyond => ?_⟩
  refine ⟨correctedWord_eq_self c (.inr hbeyond), fun hc => ?_⟩
  rw [isCodeword_iff.mp hc] at hbeyond
  simp at hbeyond

/-! ### DETCOR -/

/-- DETCOR completes where its codeword is driven, and its error corrector has that codeword's syndrome. -/
theorem runDetcor_of_ok {s : State} {src : Ident} {c : BitVec (codewordLength m)} (n1 n2 n3 n4 : Ident)
    (hm : isElaborable m s.maxM = true) (hc : s.readInput (codewordLength m) src = .ok c) :
    ∃ t : State, runStatement (.detcor m n1 n2 n3 n4 src) s = .next t ∧
      ∃ x ∈ t.errorCorrectors, x.ports =
        ⟨driven c, driven (syndromeOf m c), driven (correctedWord c (syndromeOf m c)), driven (syndromeOf m c),
          driven (syndromeNonzeroFlag (syndromeOf m c)),
          driven (syndromeBeyondNFlag (codewordLength m) (syndromeOf m c))⟩ :=
  ⟨_, execDetcor_of_ok n1 n2 n3 n4 hm hc, _, mem_settleOn_self (.named n1) _ s.errorCorrectors, rfl⟩

theorem syndromeOf_single_error (d : BitVec m) {p : Nat} (hp : p ≤ codewordLength m) :
    syndromeOf m (encodeWord m d ^^^ oneHot (codewordLength m) p) = BitVec.ofNat (computeRedundancy m) p := by
  rw [syndromeOf_encodeWord_xor]
  exact BitVec.eq_of_toNat_eq ((toNat_syndromeOf_oneHot hp).trans
    (Nat.mod_eq_of_lt (lt_two_pow_of_le_codewordLength hp)).symm)

end

/-- Settles O29: the syndrome of one error is its position, and inverting that undoes it. -/
theorem singleErrorIsCorrected : Obligations.SingleErrorIsCorrected := by
  intro s m n1 n2 n3 n4 src d p hm hp1 hp2 hc
  have htoNat : (BitVec.ofNat (computeRedundancy m) p).toNat = p :=
    Nat.mod_eq_of_lt (lt_two_pow_of_le_codewordLength hp2)
  have hne : p ≠ 0 := by omega
  obtain ⟨t, ht, x, hx, hports⟩ := runDetcor_of_ok n1 n2 n3 n4 hm hc
  refine ⟨t, ht, ⟨x, hx, ?_⟩, htoNat, decodeWord_encodeWord d⟩
  rw [hports, syndromeOf_single_error d hp2, correctedWord_eq_xor_oneHot, syndromeNonzeroFlag_eq, syndromeBeyondNFlag_eq,
    htoNat, if_neg hne, if_neg hp2.not_gt, BitVec.xor_assoc, BitVec.xor_self, BitVec.xor_zero]

/-- Settles O30: a codeword has syndrome 0, and so has what correction by a syndrome up to N gives. -/
theorem noErrorIsIdempotent : Obligations.NoErrorIsIdempotent := by
  refine ⟨fun s m n1 n2 n3 n4 src d hm hc => ?_, fun m _ c hle => ?_⟩
  · obtain ⟨t, ht, x, hx, hports⟩ := runDetcor_of_ok n1 n2 n3 n4 hm hc
    refine ⟨t, ht, x, hx, ?_⟩
    rw [hports, syndromeOf_encodeWord, correctedWord_zero, syndromeNonzeroFlag_eq, syndromeBeyondNFlag_eq]
    simp
  · have hsyn := syndromeOf_correctedWord hle
    exact ⟨hsyn, by rw [hsyn, correctedWord_zero]⟩

/-- Settles O31: the syndrome is that of the pattern alone, and the corrector's outputs follow from it. -/
theorem anyErrorPatternGivesDefinedOutputs : Obligations.AnyErrorPatternGivesDefinedOutputs := by
  intro s m n1 n2 n3 n4 src d e hm hc
  obtain ⟨t, ht, hx⟩ := runDetcor_of_ok n1 n2 n3 n4 hm hc
  rw [syndromeOf_encodeWord_xor] at hx
  refine ⟨t, syndromeOf m e, correctedWord (encodeWord m d ^^^ e) (syndromeOf m e), _, _, ht, hx, toNat_syndromeOf e,
    (syndromeOf m e).isLt, fun i h1 h2 => bitAt_correctedWord _ _ h1 h2, syndromeNonzeroFlag_eq_one_iff _,
    syndromeBeyondNFlag_eq_one_iff _ _⟩

end Sys2Proof.Proofs
end
